-- ==== Sys2Proof/Word.lean ====
section
/-! DEFINITION. The plain value types of the Bytecode Interpreter (spec/00_scope.md R5, R8).

The contents of A, B and C, a resolved operand value, IP and ROM_LEN are unsigned numbers and are held as `Nat`. The
widths XLEN and IPW are open parameters of the block, so the bounds `< 2 ^ XLEN` and `< 2 ^ IPW` are invariants and not
part of a type, which R6 allows in words: "A model may therefore hold A, B, C and IP as natural numbers with the bounds
as invariants, or as bit-vectors of XLEN and IPW bits; the two agree on every run". DESIGN CHOICE, log entry 1, safe. -/

namespace Sys2Proof

/-- One ROM cell: "ROM cell width ... 8 bits" (R5). -/
abbrev Byte := BitVec 8

/-- One element of the Output Sequence: 3 bits (R21). -/
abbrev OutVal := BitVec 3

end Sys2Proof
end

