-- ==== Sys2Proof/Syntax.lean ====
section
/-! DEFINITION. The instructions as data: one constructor of `Instr` for each row of
spec/opcode_table.json (spec/30_encoding.md R47, R49, R54). -/

namespace Sys2Proof

/-- The register file: exactly three registers, indices 0, 1, 2 (spec/10_state.md R11). -/
inductive Reg where
  | a
  | b
  | c
  deriving DecidableEq, Repr

/-- The operand kind of an opcode, "a static property of each opcode" (R47). -/
inductive OperandKind where
  | literal
  | combo
  | ignored
  deriving DecidableEq, Repr

/-- A combo operand byte, read by the table of R49.
`reserved` carries a byte of 7 to 255, which has no value: the instruction that holds it raises
MalformedProgram(ReservedCombo) (R56, R57). DESIGN CHOICE, log entry 12, safe. -/
inductive Combo where
  /-- operand bytes 0 to 3: the byte itself. -/
  | imm (n : BitVec 2)
  /-- operand bytes 4, 5, 6: the current value of A, B, C. -/
  | reg (r : Reg)
  /-- operand bytes 7 to 255. -/
  | reserved (byte : Byte)
  deriving DecidableEq, Repr

/-- The eight instructions, in the order of their opcode numbers (R2, R54). -/
inductive Instr where
  /-- ADV, opcode 0. -/
  | adv (o : Combo)
  /-- BXL, opcode 1. -/
  | bxl (literal : Byte)
  /-- BST, opcode 2. -/
  | bst (o : Combo)
  /-- JNZ, opcode 3: the literal is the absolute byte offset of the target. -/
  | jnz (target : Byte)
  /-- BXC, opcode 4: the operand byte is "read and discarded" (R60). -/
  | bxc (discarded : Byte)
  /-- OUT, opcode 5. -/
  | out (o : Combo)
  /-- BDV, opcode 6. -/
  | bdv (o : Combo)
  /-- CDV, opcode 7. -/
  | cdv (o : Combo)
  deriving DecidableEq, Repr

/-- The operand kind of each instruction (R47). -/
def Instr.kind : Instr → OperandKind
  | .adv _ => .combo
  | .bxl _ => .literal
  | .bst _ => .combo
  | .jnz _ => .literal
  | .bxc _ => .ignored
  | .out _ => .combo
  | .bdv _ => .combo
  | .cdv _ => .combo

/-- Why bytes are no instruction: the three ways the fetch and decode lines of R52 can end a step before an
instruction is selected. -/
inductive DecodeError where
  /-- there is no byte to read as the opcode (line 1, the halt). -/
  | noOpcode
  /-- there is an opcode byte and no operand byte (line 2). -/
  | noOperand
  /-- the opcode byte is 8 to 255 (line 4, R55). -/
  | illegalOpcode (opcode : Byte)
  deriving DecidableEq, Repr

end Sys2Proof
end

