-- ==== Sys2Proof/WellFormed.lean ====
section
/-! DEFINITION. What is checked of an instruction and of a program as data. The block itself checks none of
the program conditions in advance (spec/30_encoding.md R59). -/

namespace Sys2Proof

/-- A `reserved` combo operand holds a byte of 7 to 255; a smaller byte is one of the other forms (R49). -/
def Combo.wf : Combo → Bool
  | .imm _ => true
  | .reg _ => true
  | .reserved byte => 7 ≤ byte.toNat

/-- Every combo operand is well formed; a literal or an ignored operand byte may be any byte (R58, R60). -/
def Instr.wf : Instr → Bool
  | .adv o => o.wf
  | .bxl _ => true
  | .bst o => o.wf
  | .jnz _ => true
  | .bxc _ => true
  | .out o => o.wf
  | .bdv o => o.wf
  | .cdv o => o.wf

/-- The opcode bytes whose operand is a combo operand: {0, 2, 5, 6, 7} (R47, R59). -/
def isComboOpcode (b : Byte) : Bool :=
  match b.toNat with
  | 0 => true
  | 2 => true
  | 5 => true
  | 6 => true
  | 7 => true
  | _ => false

/-- Condition (a) of R59: ROM_LEN is even. -/
abbrev RomEvenLength (rom : List Byte) : Prop := rom.length % 2 = 0

/-- Condition (b) of R59: every cell is 0 to 7. -/
abbrev RomCellsSmall (rom : List Byte) : Prop := ∀ i < rom.length, (rom.getD i 0).toNat ≤ 7

/-- Condition (c) of R59: for every even offset i with ROM[i] in {0,2,5,6,7}, ROM[i+1] is not 7. -/
abbrev RomNoComboSeven (rom : List Byte) : Prop :=
  ∀ i < rom.length, i % 2 = 0 → isComboOpcode (rom.getD i 0) = true → (rom.getD (i + 1) 0).toNat ≠ 7

/-- Condition (d) of R59, the spec's own addition: for every even offset i with ROM[i] = 3, ROM[i+1] is even. -/
abbrev RomEvenJumps (rom : List Byte) : Prop :=
  ∀ i < rom.length, i % 2 = 0 → (rom.getD i 0).toNat = 3 → (rom.getD (i + 1) 0).toNat % 2 = 0

/-- A well-formed program: conditions (a) to (c) of R59. -/
abbrev RomWellFormed (rom : List Byte) : Prop :=
  RomEvenLength rom ∧ RomCellsSmall rom ∧ RomNoComboSeven rom

end Sys2Proof
end

