-- ==== Sys2Proof/Decode.lean ====
section
/-! DEFINITION. The decoder, total on any bytes and rejecting by name, and the encoder
(spec/30_encoding.md R45, R46, R49, R54 to R58, R60). -/

namespace Sys2Proof

/-- The combo operand an operand byte stands for, by the table of R49. -/
def Combo.ofByte (byte : Byte) : Combo :=
  match byte.toNat with
  | 0 => .imm 0
  | 1 => .imm 1
  | 2 => .imm 2
  | 3 => .imm 3
  | 4 => .reg .a
  | 5 => .reg .b
  | 6 => .reg .c
  | _ => .reserved byte

/-- The instruction an opcode byte and an operand byte stand for; an opcode byte of 8 to 255 is illegal and is
not decoded by its low three bits (R54, R55). -/
def decodePair (opcode operand : Byte) : Except DecodeError Instr :=
  match opcode.toNat with
  | 0 => .ok (.adv (Combo.ofByte operand))
  | 1 => .ok (.bxl operand)
  | 2 => .ok (.bst (Combo.ofByte operand))
  | 3 => .ok (.jnz operand)
  | 4 => .ok (.bxc operand)
  | 5 => .ok (.out (Combo.ofByte operand))
  | 6 => .ok (.bdv (Combo.ofByte operand))
  | 7 => .ok (.cdv (Combo.ofByte operand))
  | _ => .error (.illegalOpcode opcode)

/-- Decode the first instruction of a sequence of bytes in address order and give back the bytes after it.
Every instruction is exactly two bytes (R45); the order of the rejections is the order of the lines of R52. -/
def decode : List Byte → Except DecodeError (Instr × List Byte)
  | [] => .error .noOpcode
  | [_] => .error .noOperand
  | opcode :: operand :: rest =>
    match decodePair opcode operand with
    | .ok i => .ok (i, rest)
    | .error e => .error e

/-- The operand byte of a combo operand, by the table of R49. -/
def Combo.toByte : Combo → Byte
  | .imm n => BitVec.ofNat 8 n.toNat
  | .reg .a => 4
  | .reg .b => 5
  | .reg .c => 6
  | .reserved byte => byte

/-- The opcode byte of each instruction (R54). -/
def Instr.opcode : Instr → Byte
  | .adv _ => 0
  | .bxl _ => 1
  | .bst _ => 2
  | .jnz _ => 3
  | .bxc _ => 4
  | .out _ => 5
  | .bdv _ => 6
  | .cdv _ => 7

/-- The operand byte of each instruction (R45: every instruction has one). -/
def Instr.operand : Instr → Byte
  | .adv o => o.toByte
  | .bxl literal => literal
  | .bst o => o.toByte
  | .jnz target => target
  | .bxc discarded => discarded
  | .out o => o.toByte
  | .bdv o => o.toByte
  | .cdv o => o.toByte

/-- The bytes of an instruction: the opcode byte at the lower offset, then the operand byte (R35, R45). -/
def encode (i : Instr) : List Byte := [i.opcode, i.operand]

/-- The two ROM bytes of a word of spec/opcode_table.json: W = ROM[IP] * 256 + ROM[IP + 1], so that W[15:8] is the
opcode byte and W[7:0] the operand byte (R46). Bits of `w` at and above `nbits` are taken as 0. DEDUCED, log entry 13, safe. -/
def tableWordBytes (nbits w : Nat) : Byte × Byte :=
  let word := w % 2 ^ nbits
  (BitVec.ofNat 8 (word / 256), BitVec.ofNat 8 word)

/-- The instruction the decoder reads from a word of spec/opcode_table.json. An instruction is never longer than
16 bits (R45), so a longer word is refused. -/
def decodeTableWord (nbits w : Nat) : Option Instr :=
  if nbits ≤ 16 then
    match decode [(tableWordBytes nbits w).1, (tableWordBytes nbits w).2] with
    | .ok (i, _) => some i
    | .error _ => none
  else none

end Sys2Proof
end

