-- ==== Sys2Proof/Config.lean ====
section
/-! DEFINITION. What an implementation of the block fixes: the parameters XLEN and IPW of
spec/00_scope.md R5. Both are OPEN (spec/92_eei_decisions.md D2, D3), so no number is chosen here:
every definition and statement that needs a width takes a `Params` as an argument. And the one free value of the model. -/

namespace Sys2Proof

/-- The two open widths of R5. ROM_LEN, the third parameter, is set by each LOAD and stands in State;
the fourth, the ROM cell width, is fixed at 8 bits and is the type `Byte`. -/
structure Params where
  /-- XLEN, the width in bits of each of A, B and C. -/
  xlen : Nat
  /-- IPW, the width in bits of IP. -/
  ipw : Nat
  deriving DecidableEq, Repr

/-- The constraints of R5: XLEN >= 8 and IPW >= 8. -/
abbrev Params.Legal (p : Params) : Prop := 8 ≤ p.xlen ∧ 8 ≤ p.ipw

/-- "A register always holds an unsigned number in the range 0 to 2^XLEN - 1" (R13). -/
abbrev Params.FitsReg (p : Params) (v : Nat) : Prop := v < 2 ^ p.xlen

/-- A number that IPW bits can hold: IP, or ROM_LEN (0 <= ROM_LEN <= 2^IPW - 1, R5). -/
abbrev Params.FitsIp (p : Params) (n : Nat) : Prop := n < 2 ^ p.ipw

/-- FREE VALUE. The Operand Resolver's `value` signal on inputs for which no rule gives it one: a combo operand byte of 7 to
255 (R49: "none"; spec/93_implementation_defined.md U1 and U2 forbid giving it one), where `invalid` is 1, and the code 3
of `kind`, which R50 does not assign. It may depend on all the resolver's inputs and on nothing else (R50: "a pure
combinational function"). No step uses it. DESIGN CHOICE, log entry 15, safe. -/
opaque Config.unstatedResolverValue (w : Nat) (kind : BitVec 2) (opd : Byte) (a b c : BitVec w) : BitVec w

end Sys2Proof
end

