-- ==== Sys2Proof/Machine/State.lean ====
section
/-! DEFINITION. The state of the block as plain data, the reasons a step can stop, and the state after reset
(spec/10_state.md R10 to R28). -/

namespace Sys2Proof.Machine

/-- The three causes of a MalformedProgram fault (R19). CAUSE None is no constructor: CAUSE is 0 whenever STATUS is
not Faulted, and the cause stands in the Faulted constructor of `Status` (spec/93_implementation_defined.md U9). -/
inductive Cause where
  /-- CAUSE 1: the opcode byte at IP exists and the operand byte at IP + 1 does not (R106). -/
  | missingOperand
  /-- CAUSE 2: the opcode byte at IP is larger than 7 (R107). -/
  | illegalOpcode
  /-- CAUSE 3: a combo operand byte is 7 or larger (R108). -/
  | reservedCombo
  deriving DecidableEq, Repr

/-- STATUS and CAUSE together: "a three-constructor type for STATUS, with the cause carried by the Faulted
constructor" (U9). The reserved STATUS value 3 and a CAUSE that disagrees with STATUS are not representable.
DEDUCED, log entry 7, safe. -/
inductive Status where
  /-- STATUS 0, CAUSE 0: the block takes a step. -/
  | running
  /-- STATUS 1, CAUSE 0: a fetch found no opcode at IP; a terminal state and no error. -/
  | halted
  /-- STATUS 2: a MalformedProgram fault was raised. -/
  | faulted (cause : Cause)
  deriving DecidableEq, Repr

/-- The contents of the ROM space: (offset, byte) pairs with strictly rising offsets and no pair whose byte is 0.
An offset below ROM_LEN that is not listed holds 0. This is a canonical way to write down "an immutable ordered
sequence of bytes" and no fact about power-on contents: LOAD gives every cell (R23, R26).
DESIGN CHOICE, log entry 3, unsafe for a claim about a read at or past ROM_LEN, safe for every run from a LOAD. -/
abbrev Memory := List Host.Cell

/-- The seven elements of R10 (STATUS and CAUSE in one field), and the ROM with its length. The ROM is a parameter of
the run (R23); the step function of `Host.Core` takes a state only, so it stands here, and that no step changes it is
stated (DESIGN CHOICE, log entry 2, safe). -/
structure State where
  /-- register A (index 0), XLEN bits. -/
  a : Nat
  /-- register B (index 1), XLEN bits. -/
  b : Nat
  /-- register C (index 2), XLEN bits. -/
  c : Nat
  /-- the instruction pointer, IPW bits: the offset of the opcode byte of the next instruction (R14). -/
  ip : Nat
  /-- the Output Sequence, first element first (R21). -/
  out : List OutVal
  /-- STATUS and CAUSE (R18, R19). -/
  status : Status
  /-- the ROM's contents (R23, R30). -/
  rom : Memory
  /-- ROM_LEN, the number of ROM cells (R5). -/
  romLen : Nat
  deriving DecidableEq, Repr

/-- Why a step gives no next state: "A block whose STATUS is Halted or Faulted has no step" (R53, R113). A
MalformedProgram fault of the block is NOT one of these: it is a next state whose STATUS is Faulted (R110). -/
inductive Fault where
  /-- raised by `step` alone, on a state whose STATUS is Halted; safe. -/
  | haltedHasNoStep
  /-- raised by `step` alone, on a state whose STATUS is Faulted with this cause; safe. -/
  | faultedHasNoStep (cause : Cause)
  deriving DecidableEq, Repr

/-- What the model has no event or meaning for. -/
inductive Refusal where
  /-- raised by `exec`'s arms alone, for an instruction without a meaning (none is left); safe. -/
  | notModelled (mnemonic : String)
  /-- raised by `load` alone, on arguments that do not fit the ports: "a model refuses it"
  (spec/70_reset_and_hazards.md R132, U6, U7); safe. -/
  | loadDoesNotFit
  deriving DecidableEq, Repr

/-- The outcome of a step, of a meaning or of a host event. -/
abbrev StepOutcome := Host.Outcome State Fault Refusal

/-- The state after reset. The only reset is LOAD(rom, a0, b0, c0) (R26, R131); this is the state after the LOAD of the
empty ROM with a0 = b0 = c0 = 0. IP = 0, OUT empty, STATUS Running and CAUSE None are R26's values for every LOAD.
A = B = C = 0 and the empty ROM are DESIGN CHOICE, log entry 4, unsafe: R26 leaves them to the host's arguments. -/
def State.reset : State :=
  { a := 0, b := 0, c := 0, ip := 0, out := [], status := .running, rom := [], romLen := 0 }

end Sys2Proof.Machine
end

