-- ==== Sys2Proof/Machine/Ops.lean ====
section
/-! DEFINITION. The named operations over memory, registers, IP, STATUS and the Output Sequence, the fetch, and taking
a fault (spec/20_memory.md, spec/30_encoding.md R52, spec/60_exceptions.md R105 to R113). -/

namespace Sys2Proof.Machine

/-- `MemRead(offset, 1)` (R32): the listed byte, or 0 for an offset that is not listed. It has a meaning only below
ROM_LEN; every caller compares the offset with ROM_LEN first. -/
def Memory.read : Memory → Nat → Byte
  | [], _ => 0
  | cell :: rest, offset => if cell.1 = offset then cell.2 else Memory.read rest offset

/-- List `byte` at `offset`, in its place in the rising order. -/
def Memory.insert (offset : Nat) (byte : Byte) : Memory → Memory
  | [] => [(offset, byte)]
  | cell :: rest =>
    if offset < cell.1 then (offset, byte) :: cell :: rest
    else if offset = cell.1 then (offset, byte) :: rest
    else cell :: Memory.insert offset byte rest

/-- Take `offset` out of the list. -/
def Memory.erase (offset : Nat) : Memory → Memory
  | [] => []
  | cell :: rest => if cell.1 = offset then rest else cell :: Memory.erase offset rest

/-- Put `byte` at `offset` and keep the canonical form. No instruction does this (R30: "never, after LOAD"); it serves
`withFetchWord`, which stands for placing a program from outside. -/
def Memory.write (m : Memory) (offset : Nat) (byte : Byte) : Memory :=
  if byte = 0 then Memory.erase offset m else Memory.insert offset byte m

/-- The memory that holds `bytes` from `offset` on. -/
def Memory.ofBytesFrom : Nat → List Byte → Memory
  | _, [] => []
  | offset, byte :: rest =>
    if byte = 0 then Memory.ofBytesFrom (offset + 1) rest
    else (offset, byte) :: Memory.ofBytesFrom (offset + 1) rest

/-- The ROM space as LOAD fills it: the first byte at offset 0 (R37). -/
def Memory.ofBytes (bytes : List Byte) : Memory := Memory.ofBytesFrom 0 bytes

/-- The offsets rise strictly and lie at or above `low`, and no listed byte is 0. -/
def Memory.canonicalFrom : Nat → Memory → Bool
  | _, [] => true
  | low, cell :: rest => low ≤ cell.1 && cell.2 != 0 && Memory.canonicalFrom (cell.1 + 1) rest

/-- The canonical form of a memory: strictly rising offsets, and no entry equal to what an unlisted offset reads as. -/
def Memory.wf (m : Memory) : Bool := Memory.canonicalFrom 0 m

/-- Every listed offset is below `len`. -/
def Memory.below (len : Nat) (m : Memory) : Bool := m.all fun cell => cell.1 < len

/-- Read a register; all three hold a value from LOAD on (R11, R13). -/
def readReg (r : Reg) (s : State) : Nat :=
  match r with
  | .a => s.a
  | .b => s.b
  | .c => s.c

/-- Write a register; no register is hardwired or an alias of another (R11). -/
def writeReg (r : Reg) (v : Nat) (s : State) : State :=
  match r with
  | .a => { s with a := v }
  | .b => { s with b := v }
  | .c => { s with c := v }

/-- The sequential advance, `IP <- IP + 2` (R90). -/
def advance (s : State) : State := { s with ip := s.ip + 2 }

/-- A taken jump: the target replaces the advance (R92). -/
def jumpTo (target : Nat) (s : State) : State := { s with ip := target }

/-- `OutAppend(v)` (R33): one element at the end of the Output Sequence; it always succeeds. -/
def outAppend (v : OutVal) (s : State) : State := { s with out := s.out ++ [v] }

/-- The halt step: STATUS becomes Halted and nothing else changes (R105). -/
def halt (s : State) : State := { s with status := .halted }

/-- TAKING A FAULT, `raise MalformedProgram(cause)`: STATUS becomes Faulted with the cause, and nothing else changes;
IP still holds the offset of the faulting instruction's opcode byte (R110). There is no vector, no handler, no saved
register and no mode (R111), and no return from a fault: only LOAD leaves it (R113). -/
def raiseFault (cause : Cause) (s : State) : State := { s with status := .faulted cause }

/-- The bytes the fetch finds at IP, in address order, at most two: an offset at or past ROM_LEN is not an access at
all (R32, R52 lines 1 to 3). -/
def fetchBytes (s : State) : List Byte :=
  if s.romLen ≤ s.ip then []
  else if s.romLen ≤ s.ip + 1 then [s.rom.read s.ip]
  else [s.rom.read s.ip, s.rom.read (s.ip + 1)]

/-- Place the bytes of one instruction where the next fetch reads, ROM_LEN raised to hold both, and STATUS Running, so
that the block steps. It stands for the host's LOAD of a program. DESIGN CHOICE, log entry 5, unsafe if taken for a move of the
hardware. -/
def placeInstruction (opcode operand : Byte) (s : State) : State :=
  { s with
    rom := (s.rom.write s.ip opcode).write (s.ip + 1) operand
    romLen := max s.romLen (s.ip + 2)
    status := .running }

end Sys2Proof.Machine
end

