-- ==== Sys2Proof/Machine/Operands.lean ====
section
/-! DEFINITION. The Operand Resolver's two readings of an operand byte, and the arithmetic of the instructions
(spec/30_encoding.md R48, R49, spec/40_division.md R73, spec/00_scope.md R8). -/

namespace Sys2Proof.Machine

/-- Literal resolution: "the byte value itself", zero-extended, for every byte 0 to 255 (R48, R58). -/
def literalValue (byte : Byte) : Nat := byte.toNat

/-- Combo resolution by the table of R49, on the registers as they are at the start of the step; a reserved byte has no
value. -/
def comboValue (o : Combo) (s : State) : Option Nat :=
  match o with
  | .imm n => some n.toNat
  | .reg r => some (readReg r s)
  | .reserved _ => none

/-- Line 5 of R52 for a combo operand: resolve it and go on with its value, or raise
MalformedProgram(ReservedCombo) before anything is written (R108, R110). -/
def withCombo (o : Combo) (s : State) (effect : Nat → State) : StepOutcome :=
  match comboValue o s with
  | some v => .next (effect v)
  | none => .next (raiseFault .reservedCombo s)

/-- `A div 2^v` (R73), as the logical right shift R73 computes it by. A shift by XLEN or more of a value below 2^XLEN
is 0 (R74); the exponent is not reduced and the denominator is never formed. The source is silent on such exponents and R74 is the
spec's decision D12: UNVERIFIED, log entry 8, unsafe. -/
def divPow2 (numerator v : Nat) : Nat := numerator >>> v

/-- `v mod 8`, the value of `v[2:0]` (R8). -/
def mod8 (v : Nat) : Nat := v % 8

/-- `v[2:0]` as the 3-bit value that OutAppend takes (R100). -/
def lowThreeBits (v : Nat) : OutVal := BitVec.ofNat 3 v

end Sys2Proof.Machine
end

