-- ==== Sys2Proof/Machine/Bitwise.lean ====
section
/-! DEFINITION. The bitwise family BXL, BST, BXC (spec/41_bitwise.md): each writes B and IP and nothing else. -/

namespace Sys2Proof.Machine

/-- BXL: `B <- B XOR zext_XLEN(opd); IP <- IP + 2` (R80). -/
def execBxl (literal : Byte) (s : State) : StepOutcome :=
  .next (advance (writeReg .b (s.b ^^^ literalValue literal) s))

/-- BST: `B <- zext_XLEN(v[2:0]); IP <- IP + 2` (R81). -/
def execBst (o : Combo) (s : State) : StepOutcome :=
  withCombo o s fun v => advance (writeReg .b (mod8 v) s)

/-- BXC: `B <- B XOR C; IP <- IP + 2`; the operand byte is not looked at (R82, R60). -/
def execBxc (_discarded : Byte) (s : State) : StepOutcome :=
  .next (advance (writeReg .b (s.b ^^^ s.c) s))

end Sys2Proof.Machine
end

