-- ==== Sys2Proof/Machine/Flags.lean ====
section
/-! DEFINITION. "There are no flags, condition codes or predicates" (spec/10_state.md R17): no instruction leaves a
status bit behind. The one condition of the instruction set is JNZ's test. -/

namespace Sys2Proof.Machine

/-- JNZ's condition: the whole of register A is not zero, at the moment the instruction executes (R17, R92). -/
def jumpTaken (s : State) : Bool := s.a != 0

end Sys2Proof.Machine
end

