-- ==== Sys2Proof/Machine/Control.lean ====
section
/-! DEFINITION. Control transfer: JNZ, the only instruction that redirects IP (spec/42_control.md R92, R93). -/

namespace Sys2Proof.Machine

/-- JNZ: `if A != 0 then IP <- zext_IPW(opd) else IP <- IP + 2`; the target is absolute and is not checked (R92). -/
def execJnz (target : Byte) (s : State) : StepOutcome :=
  .next (if jumpTaken s then jumpTo (literalValue target) s else advance s)

end Sys2Proof.Machine
end

