-- ==== Sys2Proof/Machine/Division.lean ====
section
/-! DEFINITION. The division family ADV, BDV, CDV (spec/40_division.md): the quotient of A by a power of two, which
differs in its destination only (R76). -/

namespace Sys2Proof.Machine

/-- The effect the three share: the numerator is the current value of A, not of the target register (R73). -/
def divideInto (dest : Reg) (o : Combo) (s : State) : StepOutcome :=
  withCombo o s fun v => advance (writeReg dest (divPow2 s.a v) s)

/-- ADV: `A <- A div 2^v; IP <- IP + 2` (R70). -/
def execAdv (o : Combo) (s : State) : StepOutcome := divideInto .a o s

/-- BDV: `B <- A div 2^v; IP <- IP + 2` (R71). -/
def execBdv (o : Combo) (s : State) : StepOutcome := divideInto .b o s

/-- CDV: `C <- A div 2^v; IP <- IP + 2` (R72). -/
def execCdv (o : Combo) (s : State) : StepOutcome := divideInto .c o s

end Sys2Proof.Machine
end

