-- ==== Sys2Proof/Machine/Output.lean ====
section
/-! DEFINITION. Output: OUT, the only instruction that writes the Output Sequence (spec/43_output.md R100). -/

namespace Sys2Proof.Machine

/-- OUT: `OutAppend(v[2:0]); IP <- IP + 2` (R100). -/
def execOut (o : Combo) (s : State) : StepOutcome :=
  withCombo o s fun v => advance (outAppend (lowThreeBits v) s)

end Sys2Proof.Machine
end

