-- ==== Sys2Proof/Machine/Dispatch.lean ====
section
/-! DEFINITION. The dispatch unit: one meaning for each instruction (spec/30_encoding.md R51). -/

namespace Sys2Proof.Machine

def exec (i : Instr) (s : State) : Host.Outcome State Fault Refusal :=
  match i with
  | .adv o => Sys2Proof.Machine.execAdv o s
  | .bxl literal => Sys2Proof.Machine.execBxl literal s
  | .bst o => Sys2Proof.Machine.execBst o s
  | .jnz target => Sys2Proof.Machine.execJnz target s
  | .bxc discarded => Sys2Proof.Machine.execBxc discarded s
  | .out o => Sys2Proof.Machine.execOut o s
  | .bdv o => Sys2Proof.Machine.execBdv o s
  | .cdv o => Sys2Proof.Machine.execCdv o s

end Sys2Proof.Machine
end

