-- ==== Sys2Proof/Machine/Cycle.lean ====
section
/-! DEFINITION. One turn of the Interpreter Loop on a Running block (spec/30_encoding.md R52). -/

namespace Sys2Proof.Machine

/-- The step of a Running block, in the order of R52's lines: the halt (R105), MissingOperand (R106), IllegalOpcode
(R107), and then the instruction, whose own meaning raises ReservedCombo (R108). The priority is R112's. -/
def runCycle (s : State) : StepOutcome :=
  match decode (fetchBytes s) with
  | .error .noOpcode => .next (halt s)
  | .error .noOperand => .next (raiseFault .missingOperand s)
  | .error (.illegalOpcode _) => .next (raiseFault .illegalOpcode s)
  | .ok (i, _) => exec i s

end Sys2Proof.Machine
end

