-- ==== Sys2Proof/Machine/Step.lean ====
section
/-! DEFINITION. The step function, and placing one instruction at the fetch (spec/30_encoding.md R52, R53). -/

namespace Sys2Proof.Machine

/-- One step: a Running block does one cycle; a Halted or Faulted block has no step (R53, R113), for which the
outcome is a fault of the model's own name. DESIGN CHOICE, log entry 6, safe. -/
def step (s : State) : Host.Outcome State Fault Refusal :=
  match s.status with
  | .running => runCycle s
  | .halted => .fault .haltedHasNoStep
  | .faulted cause => .fault (.faultedHasNoStep cause)

/-- `s` with the instruction of a word of spec/opcode_table.json at IP, so that the very next step runs it. -/
def State.withFetchWord (s : State) (nbits w : Nat) : State :=
  placeInstruction (tableWordBytes nbits w).1 (tableWordBytes nbits w).2 s

end Sys2Proof.Machine
end

