-- ==== Sys2Proof/Machine/HostPort.lean ====
section
/-! DEFINITION. The logical interface of the block: the LOAD event and what the host may read
(spec/70_reset_and_hazards.md R130 to R136). -/

namespace Sys2Proof.Machine

/-- The arguments of LOAD(rom, a0, b0, c0); ROM_LEN is the length of `rom` (R131). -/
structure LoadArgs where
  rom : List Byte
  a0 : Nat
  b0 : Nat
  c0 : Nat
  deriving DecidableEq, Repr

/-- The arguments fit the ports, whose widths are XLEN, 8 and IPW bits (R132). Nothing else is required of them. -/
abbrev LoadArgs.Fits (p : Params) (args : LoadArgs) : Prop :=
  p.FitsReg args.a0 ∧ p.FitsReg args.b0 ∧ p.FitsReg args.c0 ∧ p.FitsIp args.rom.length

/-- Every element as LOAD leaves it (R26). -/
def loadedState (args : LoadArgs) : State :=
  { a := args.a0, b := args.b0, c := args.c0, ip := 0, out := [], status := .running
    rom := Memory.ofBytes args.rom, romLen := args.rom.length }

/-- The reset event LOAD on a block with the widths `p`, in any STATUS: atomic, and nothing of the previous state
survives (R131, R136). Arguments that do not fit are no event of the model (R132). It lands between two steps:
DESIGN CHOICE, log entry 10, unsafe for a claim about a run that a LOAD may cut short. -/
def load (p : Params) (args : LoadArgs) (_s : State) : StepOutcome :=
  if args.Fits p then .next (loadedState args) else .refused .loadDoesNotFit

/-- What can happen to a block: it takes a step, or the host gives a LOAD. There is no interrupt and no other outside
event (R116, R137). -/
inductive Event where
  | step
  | load (args : LoadArgs)
  deriving DecidableEq, Repr

/-- The effect of one event on a block with the widths `p`. -/
def react (p : Params) (e : Event) (s : State) : StepOutcome :=
  match e with
  | .step => step s
  | .load args => load p args s

/-- A history of the block: events one after another, up to the first that gives no next state. A LOAD may come in any
STATUS and abandons the run it falls in (R136). -/
def afterEvents (p : Params) : List Event → State → StepOutcome
  | [], s => .next s
  | e :: later, s =>
    match react p e s with
    | .next t => afterEvents p later t
    | .fault r => .fault r
    | .refused r => .refused r

/-- The 2-bit encoding of STATUS (R18); 3 is reserved and is never produced. -/
def Status.code : Status → BitVec 2
  | .running => 0
  | .halted => 1
  | .faulted _ => 2

/-- The 2-bit encoding of CAUSE (R19): None is 0, and stands whenever STATUS is not Faulted. -/
def Status.causeCode : Status → BitVec 2
  | .faulted .missingOperand => 1
  | .faulted .illegalOpcode => 2
  | .faulted .reservedCombo => 3
  | .running => 0
  | .halted => 0

/-- The output ports of R130, as the host reads them between two steps (R135). -/
structure Ports (p : Params) where
  status : BitVec 2
  cause : BitVec 2
  out : List OutVal
  a : BitVec p.xlen
  b : BitVec p.xlen
  c : BitVec p.xlen
  ip : BitVec p.ipw
  deriving DecidableEq, Repr

/-- What the host reads of a state; reading has no effect on the block (R135). Which step boundary a read sees
is not modelled: DESIGN CHOICE, log entry 11, safe. -/
def ports (p : Params) (s : State) : Ports p :=
  { status := s.status.code
    cause := s.status.causeCode
    out := s.out
    a := BitVec.ofNat p.xlen s.a
    b := BitVec.ofNat p.xlen s.b
    c := BitVec.ofNat p.xlen s.c
    ip := BitVec.ofNat p.ipw s.ip }

/-- The element the out stream presents at the step that a Running block takes next: one for an executed OUT instruction
and none for any other step (R134). -/
def presented (s : State) : List OutVal :=
  match decode (fetchBytes s) with
  | .ok (.out o, _) =>
    match comboValue o s with
    | some v => [lowThreeBits v]
    | none => []
  | _ => []

end Sys2Proof.Machine
end

