-- ==== Sys2Proof/Machine/Datapath.lean ====
section
/-! DEFINITION. The block as hardware, with bit vectors of XLEN and IPW bits: the Operand Resolver as a multiplexer
(spec/30_encoding.md R50), the decode table of the dispatch unit as control signals (R51), and the eight lines of R52.
It is a second transcription of the step; that it and `step` agree is a statement about the model (R6: "the two agree on
every run"). It takes 0 for a value that no rule uses: DESIGN CHOICE, log entry 14, safe. -/

namespace Sys2Proof.Machine

/-- The state as bits. -/
structure BitState (p : Params) where
  a : BitVec p.xlen
  b : BitVec p.xlen
  c : BitVec p.xlen
  ip : BitVec p.ipw
  out : List OutVal
  status : BitVec 2
  cause : BitVec 2
  rom : Memory
  romLen : BitVec p.ipw
  deriving DecidableEq, Repr

/-- A state written in `p`'s widths. -/
def bitsOf (p : Params) (s : State) : BitState p :=
  { a := BitVec.ofNat p.xlen s.a
    b := BitVec.ofNat p.xlen s.b
    c := BitVec.ofNat p.xlen s.c
    ip := BitVec.ofNat p.ipw s.ip
    out := s.out
    status := s.status.code
    cause := s.status.causeCode
    rom := s.rom
    romLen := BitVec.ofNat p.ipw s.romLen }

/-- The functions of R51's table. -/
inductive AluFunction where
  /-- `A div 2^value`. -/
  | divide
  /-- `B XOR value`. -/
  | xorValue
  /-- `value mod 8`. -/
  | valueMod8
  /-- `test A != 0`, no result. -/
  | testA
  /-- `B XOR C`. -/
  | xorC
  deriving DecidableEq, Repr

/-- One row of R51's table. -/
structure Control where
  kind : OperandKind
  function : AluFunction
  destination : Option Reg
  appendsToOut : Bool
  canRedirectIp : Bool
  deriving DecidableEq, Repr

/-- The decode table of the dispatch unit, row by row (R51). -/
def controlOf (opc : BitVec 3) : Control :=
  match opc.toNat with
  | 0 => ⟨.combo, .divide, some .a, false, false⟩
  | 1 => ⟨.literal, .xorValue, some .b, false, false⟩
  | 2 => ⟨.combo, .valueMod8, some .b, false, false⟩
  | 3 => ⟨.literal, .testA, none, false, true⟩
  | 4 => ⟨.ignored, .xorC, some .b, false, false⟩
  | 5 => ⟨.combo, .valueMod8, none, true, false⟩
  | 6 => ⟨.combo, .divide, some .b, false, false⟩
  | _ => ⟨.combo, .divide, some .c, false, false⟩

/-- The 2-bit `kind` signal that decode drives: "0 literal, 1 combo, 2 ignored (the numbers are the spec's own)" (R50). -/
def kindCode : OperandKind → BitVec 2
  | .literal => 0
  | .combo => 1
  | .ignored => 2

/-- The multiplexer's combo input: R49's value of operand bytes 0 to 6, and none for 7 to 255 (U1, U2). -/
def comboInput {w : Nat} (opd : Byte) (a b c : BitVec w) : Option (BitVec w) :=
  if opd.toNat < 4 then some (opd.setWidth w)
  else if opd = 4 then some a
  else if opd = 5 then some b
  else if opd = 6 then some c
  else none

/-- The Operand Resolver's `value` signal, from the signals `kind`, `opd` and the register file's read ports alone (R50).
Literal: zext(opd). Ignored: R50 says to take 0. Combo: R49's value. Where no rule gives a value (combo with an operand byte
of 7 to 255, and the unassigned code 3, which decode never drives) the signal is the free value
`Config.unstatedResolverValue`: DESIGN CHOICE, log entry 15, safe. -/
def resolverValue {w : Nat} (kind : BitVec 2) (opd : Byte) (a b c : BitVec w) : BitVec w :=
  if kind = 0 then opd.setWidth w
  else if kind = 1 then (comboInput opd a b c).getD (Config.unstatedResolverValue w kind opd a b c)
  else if kind = 2 then 0
  else Config.unstatedResolverValue w kind opd a b c

/-- The Operand Resolver's `invalid` signal: 1 exactly when kind is combo and opd >= 7 (R50). -/
def resolverInvalid (kind : BitVec 2) (opd : Byte) : Bool := kind == 1 && (7 : Byte).ule opd

/-- The shifter of R73 and R74: `A >> v` when v < XLEN, and 0 when v >= XLEN. -/
def shifter {w : Nat} (a v : BitVec w) : BitVec w := if v.toNat < w then a >>> v.toNat else 0

/-- The result of a function on the register file and the resolved value; `testA` has none, and
0 is taken for it: DESIGN CHOICE, log entry 14, safe. -/
def aluResult {p : Params} (f : AluFunction) (value : BitVec p.xlen) (s : BitState p) : BitVec p.xlen :=
  match f with
  | .divide => shifter s.a value
  | .xorValue => s.b ^^^ value
  | .valueMod8 => (value.extractLsb' 0 3).setWidth p.xlen
  | .testA => 0
  | .xorC => s.b ^^^ s.c

/-- The register write port. -/
def writeBits {p : Params} (dest : Option Reg) (v : BitVec p.xlen) (s : BitState p) : BitState p :=
  match dest with
  | none => s
  | some .a => { s with a := v }
  | some .b => { s with b := v }
  | some .c => { s with c := v }

/-- Lines 6 to 8 of R52: the advance, the execution, and the commit of all writes together. -/
def commitBits {p : Params} (ctl : Control) (opd : Byte) (s : BitState p) : BitState p :=
  let value := resolverValue (kindCode ctl.kind) opd s.a s.b s.c
  let result := aluResult ctl.function value s
  let next := if ctl.canRedirectIp && s.a != 0 then opd.setWidth p.ipw else s.ip + 2
  let out := if ctl.appendsToOut then s.out ++ [result.setWidth 3] else s.out
  { writeBits ctl.destination result s with ip := next, out := out }

/-- `raise MalformedProgram(cause)` on the two status fields (R110). -/
def raiseBits {p : Params} (cause : BitVec 2) (s : BitState p) : BitState p := { s with status := 2, cause := cause }

/-- The step as bits, line by line of R52; none where the block has no step (R53). -/
def bitStep {p : Params} (s : BitState p) : Option (BitState p) :=
  if s.status ≠ 0 then none
  else if s.romLen ≤ s.ip then some { s with status := 1 }
  else if s.romLen ≤ s.ip + 1 then some (raiseBits 1 s)
  else
    let opcb := s.rom.read s.ip.toNat
    let opd := s.rom.read (s.ip + 1).toNat
    if (7 : Byte).ult opcb then some (raiseBits 2 s)
    else
      let ctl := controlOf (opcb.extractLsb' 0 3)
      if resolverInvalid (kindCode ctl.kind) opd then some (raiseBits 3 s)
      else some (commitBits ctl opd s)

end Sys2Proof.Machine
end

