-- ==== Sys2Proof/Machine/SearchHost.lean ====
section
/-! DEFINITION. The one host procedure the spec records, the Quine Search Driver (spec/70_reset_and_hazards.md R141). It
is no part of the block (spec/00_scope.md R4) and has no state in it; it shows LOAD in use. The reference search has no
bound on a run or on the candidates, so both loops run under fuel here and running out is an outcome of its own, which
says nothing about the block (DESIGN CHOICE, log entry 9, safe). -/

namespace Sys2Proof.Machine

/-- "wait until STATUS != Running": the first state of the run whose STATUS is not Running, if `fuel` steps reach it. -/
def runToStop : Nat → State → Option State
  | 0, s => if s.status = .running then none else some s
  | fuel + 1, s =>
    if s.status = .running then
      match step s with
      | .next t => runToStop fuel t
      | _ => none
    else some s

/-- OUT and the ROM are the same numbers in the same order and number. -/
def outputIsRom (out : List OutVal) (rom : List Byte) : Bool := out.map BitVec.toNat == rom.map BitVec.toNat

/-- How a search ends. -/
inductive SearchOutcome where
  /-- the least candidate whose run prints the ROM. -/
  | found (candidate : Nat)
  /-- a candidate's run faulted: "a fatal abort of the whole search, not skipped". -/
  | aborted (candidate : Nat) (cause : Cause)
  /-- the next candidate does not fit the port: the search "has failed for this hardware". -/
  | exhausted (candidate : Nat)
  /-- the fuel ran out, for the run of this candidate or for the number of candidates. -/
  | outOfFuel (candidate : Nat)
  deriving DecidableEq, Repr

/-- The search over candidates for register A in strictly increasing order, from `candidate` on. `previous` is the state
the block is in when the candidate's LOAD comes. -/
def searchFrom (p : Params) (rom : List Byte) (b0 c0 : Nat) (runFuel : Nat) :
    Nat → Nat → State → SearchOutcome
  | 0, candidate, _ => .outOfFuel candidate
  | tries + 1, candidate, previous =>
    match load p { rom := rom, a0 := candidate, b0 := b0, c0 := c0 } previous with
    | .next loaded =>
      match runToStop runFuel loaded with
      | none => .outOfFuel candidate
      | some stopped =>
        match stopped.status with
        | .faulted cause => .aborted candidate cause
        | _ =>
          if outputIsRom stopped.out rom then .found candidate
          else searchFrom p rom b0 c0 runFuel tries (candidate + 1) stopped
    | _ => .exhausted candidate

end Sys2Proof.Machine
end

