-- ==== Sys2Proof/Safety.lean ====
section
/-! DEFINITION. What a run is, what counts as a safe run, and the invariant of the machine
(spec/70_reset_and_hazards.md R133, R140, spec/60_exceptions.md R115, spec/10_state.md R28). -/

namespace Sys2Proof

open Machine

/-- `t` comes after `s` in a run: zero or more steps, with no LOAD between (R133). -/
inductive Reaches : State → State → Prop where
  | refl (s : State) : Reaches s s
  | tail {s t u : State} (before : Reaches s t) (last : step t = .next u) : Reaches s u

/-- A run from `s` is safe when it never faults: "a claim about a program takes 'STATUS is never Faulted' as something
to prove, not to assume" (R115). It may halt or run for ever. -/
def NeverFaults (s : State) : Prop := ∀ t cause, Reaches s t → t.status ≠ .faulted cause

/-- The result of a run: the tuple (OUT, A, B, C, IP) (R140). -/
structure RunResult where
  out : List OutVal
  a : Nat
  b : Nat
  c : Nat
  ip : Nat
  deriving DecidableEq, Repr

/-- The tuple (OUT, A, B, C, IP) of a state. -/
def resultOf (s : State) : RunResult := { out := s.out, a := s.a, b := s.b, c := s.c, ip := s.ip }

/-- The run from `s` has ended with result `r`: it has reached a Halted state. A run that faults and a run that never
leaves Running have no result (R140). -/
def HasResult (s : State) (r : RunResult) : Prop := ∃ t, Reaches s t ∧ t.status = .halted ∧ resultOf t = r

/-- The invariants of R28 that one state can show, for a block with the widths `p`, and the form of the ROM. (The last of
R28, that OUT only grows, is about two states. That every element of OUT is 0 to 7 and that STATUS and CAUSE agree is
in the types.) -/
structure Inv (p : Params) (s : State) : Prop where
  a_fits : p.FitsReg s.a
  b_fits : p.FitsReg s.b
  c_fits : p.FitsReg s.c
  /-- ROM_LEN <= 2^IPW - 1 (R5). -/
  romLen_fits : p.FitsIp s.romLen
  /-- 0 <= IP <= max(ROM_LEN, 255). -/
  ip_le : s.ip ≤ max s.romLen 255
  /-- the ROM is in its canonical form. -/
  rom_wf : s.rom.wf = true
  /-- the ROM has no cell at or past ROM_LEN. -/
  rom_below : s.rom.below s.romLen = true
  /-- if STATUS is Halted then IP >= ROM_LEN. -/
  halted_ip : s.status = .halted → s.romLen ≤ s.ip
  /-- with CAUSE MissingOperand, IP = ROM_LEN - 1. -/
  missing_ip : s.status = .faulted .missingOperand → s.ip + 1 = s.romLen
  /-- with CAUSE IllegalOpcode, IP + 1 < ROM_LEN. -/
  illegal_ip : s.status = .faulted .illegalOpcode → s.ip + 1 < s.romLen
  /-- with CAUSE ReservedCombo, IP + 1 < ROM_LEN. -/
  reserved_ip : s.status = .faulted .reservedCombo → s.ip + 1 < s.romLen

/-- A state of a run that cannot fault (R59): the ROM meets the conditions (a) to (d), the fourth being the spec's own
addition, IP is even, and STATUS is not Faulted. -/
structure WellFormedRun (s : State) : Prop where
  /-- (a) ROM_LEN is even. -/
  even_length : s.romLen % 2 = 0
  /-- (b) every cell is 0 to 7. -/
  cells_small : ∀ i < s.romLen, (s.rom.read i).toNat ≤ 7
  /-- (c) for every even offset i with ROM[i] in {0,2,5,6,7}, ROM[i+1] is not 7. -/
  no_combo_seven :
    ∀ i < s.romLen, i % 2 = 0 → isComboOpcode (s.rom.read i) = true → (s.rom.read (i + 1)).toNat ≠ 7
  /-- (d) for every even offset i with ROM[i] = 3, ROM[i+1] is even. -/
  even_jumps : ∀ i < s.romLen, i % 2 = 0 → (s.rom.read i).toNat = 3 → (s.rom.read (i + 1)).toNat % 2 = 0
  even_ip : s.ip % 2 = 0
  not_faulted : ∀ cause, s.status ≠ .faulted cause

end Sys2Proof
end

