-- ==== Sys2Proof/Certificates/Slice0/Obligations.lean ====
section
/-! DEFINITION. The statements for the provers. Each formalises rules of spec/, named in its docstring. The predicates in
`Sys2Proof.Claims` say in the spec's own terms, on raw bytes, what several statements share. -/

namespace Sys2Proof.Claims

open Machine

/-- The table of R49 on the raw operand byte: 0 to 3 the byte itself, 4, 5, 6 the current A, B, C, and no value above. -/
def comboByte (opd : Byte) (s : State) : Option Nat :=
  if opd.toNat < 4 then some opd.toNat
  else if opd.toNat = 4 then some s.a
  else if opd.toNat = 5 then some s.b
  else if opd.toNat = 6 then some s.c
  else none

/-- The opcode byte at IP and the operand byte at IP + 1. -/
def opcodeAt (s : State) : Byte := s.rom.read s.ip
def operandAt (s : State) : Byte := s.rom.read (s.ip + 1)

/-- The step of a Running block that finds the combo instruction `opcode` at IP: MissingOperand without an operand byte,
ReservedCombo on an operand byte with no value, and otherwise exactly `effect` of the value. -/
def ComboInstruction (opcode : Byte) (effect : Nat → State → State) : Prop :=
  ∀ s : State, s.status = .running → s.ip < s.romLen → opcodeAt s = opcode →
    (s.ip + 1 = s.romLen → step s = .next { s with status := .faulted .missingOperand }) ∧
    (s.ip + 1 < s.romLen → 7 ≤ (operandAt s).toNat → step s = .next { s with status := .faulted .reservedCombo }) ∧
    (s.ip + 1 < s.romLen → ∀ v, comboByte (operandAt s) s = some v → step s = .next (effect v s))

/-- The same for an instruction whose operand byte is a literal or is ignored: no operand byte faults. -/
def ByteInstruction (opcode : Byte) (effect : Nat → State → State) : Prop :=
  ∀ s : State, s.status = .running → s.ip < s.romLen → opcodeAt s = opcode →
    (s.ip + 1 = s.romLen → step s = .next { s with status := .faulted .missingOperand }) ∧
    (s.ip + 1 < s.romLen → step s = .next (effect (operandAt s).toNat s))

/-- The register each instruction may write (R12). -/
def mayWrite : Instr → Option Reg
  | .adv _ => some .a
  | .bxl _ => some .b
  | .bst _ => some .b
  | .jnz _ => none
  | .bxc _ => some .b
  | .out _ => none
  | .bdv _ => some .b
  | .cdv _ => some .c

end Sys2Proof.Claims

open Sys2Proof Sys2Proof.Machine Sys2Proof.Claims

/-! ### Encoding and decoding -/

/-- Words written out from R54's patterns, with operands of each kind, decode to the instructions they stand for. -/
def Obligations.SampleWordsDecode : Prop :=
  decode [0x00, 0x03] = .ok (.adv (.imm 3), []) ∧
  decode [0x01, 0x07] = .ok (.bxl 7, []) ∧
  decode [0x02, 0x06] = .ok (.bst (.reg .c), []) ∧
  decode [0x03, 0x08] = .ok (.jnz 8, []) ∧
  decode [0x04, 0xFF] = .ok (.bxc 255, []) ∧
  decode [0x05, 0x04] = .ok (.out (.reg .a), []) ∧
  decode [0x06, 0x05] = .ok (.bdv (.reg .b), []) ∧
  decode [0x07, 0x07] = .ok (.cdv (.reserved 7), []) ∧
  decode [0x08, 0x00] = .error (.illegalOpcode 8) ∧
  decodeTableWord 16 0x0605 = some (.bdv (.reg .b))

/-- The opcode map: the opcode byte selects the instruction, all eight are assigned, and 8 to 255 are illegal and are not
decoded by their low three bits (30_encoding.md sections 5 and 6). -/
def Obligations.OpcodeByteSelectsInstruction : Prop :=
  ∀ (opd : Byte) (rest : List Byte),
    decode (0 :: opd :: rest) = .ok (.adv (Combo.ofByte opd), rest) ∧
    decode (1 :: opd :: rest) = .ok (.bxl opd, rest) ∧
    decode (2 :: opd :: rest) = .ok (.bst (Combo.ofByte opd), rest) ∧
    decode (3 :: opd :: rest) = .ok (.jnz opd, rest) ∧
    decode (4 :: opd :: rest) = .ok (.bxc opd, rest) ∧
    decode (5 :: opd :: rest) = .ok (.out (Combo.ofByte opd), rest) ∧
    decode (6 :: opd :: rest) = .ok (.bdv (Combo.ofByte opd), rest) ∧
    decode (7 :: opd :: rest) = .ok (.cdv (Combo.ofByte opd), rest) ∧
    ∀ x : Byte, 8 ≤ x.toNat → decode (x :: opd :: rest) = .error (.illegalOpcode x)

/-- Decoding the encoding of a well-formed instruction gives it back, with whatever bytes come after. -/
def Obligations.DecodeOfEncode : Prop :=
  ∀ (i : Instr) (rest : List Byte), i.wf = true → decode (encode i ++ rest) = .ok (i, rest)

/-- Whatever decodes is the encoding of a well-formed instruction, so no two words stand for one instruction and no bit of
a word is dropped. -/
def Obligations.EncodeOfDecode : Prop :=
  ∀ (bytes rest : List Byte) (i : Instr), decode bytes = .ok (i, rest) → i.wf = true ∧ bytes = encode i ++ rest

/-- The word W of the opcode table is ROM[IP] * 256 + ROM[IP + 1] (30_encoding.md section 1). -/
def Obligations.TableWordIsTheBytePair : Prop :=
  ∀ (opc opd : Byte) (i : Instr),
    decodeTableWord 16 (opc.toNat * 256 + opd.toNat) = some i ↔ decode [opc, opd] = .ok (i, [])

/-- R47: the operand kind is decided by the opcode byte alone, in the decoded instruction and in the dispatch table. -/
def Obligations.OperandKindIsStatic : Prop :=
  ∀ (opc opd : Byte) (i : Instr), decode [opc, opd] = .ok (i, []) →
    i.kind = (controlOf (opc.extractLsb' 0 3)).kind ∧
    (i.kind = .combo ↔ opc.toNat ∈ [0, 2, 5, 6, 7]) ∧
    (i.kind = .literal ↔ opc.toNat ∈ [1, 3]) ∧
    (i.kind = .ignored ↔ opc.toNat = 4)

/-- R49: the combo value of every operand byte, and ReservedCombo for 7 to 255 in each of the five combo instructions. -/
def Obligations.ComboOperandTable : Prop :=
  ∀ (opd : Byte) (s : State),
    comboValue (Combo.ofByte opd) s = comboByte opd s ∧
    (7 ≤ opd.toNat →
      ∀ i ∈ [Instr.adv (Combo.ofByte opd), .bst (Combo.ofByte opd), .out (Combo.ofByte opd), .bdv (Combo.ofByte opd),
          .cdv (Combo.ofByte opd)],
        exec i s = .next { s with status := .faulted .reservedCombo })

/-- The Operand Resolver's two outputs and the codes of its `kind` input, on registers of any width (30_encoding.md section
2, the multiplexer's table, which the spec derives from its rules on operands). Where it gives `value` nothing, nothing is
said of it (log entry 15). -/
def Obligations.OperandResolverSignals : Prop :=
  kindCode .literal = 0 ∧ kindCode .combo = 1 ∧ kindCode .ignored = 2 ∧
  ∀ (w : Nat) (opd : Byte) (a b c : BitVec w),
    resolverValue (kindCode .literal) opd a b c = opd.setWidth w ∧
    (opd.toNat < 4 → resolverValue (kindCode .combo) opd a b c = opd.setWidth w) ∧
    (opd.toNat = 4 → resolverValue (kindCode .combo) opd a b c = a) ∧
    (opd.toNat = 5 → resolverValue (kindCode .combo) opd a b c = b) ∧
    (opd.toNat = 6 → resolverValue (kindCode .combo) opd a b c = c) ∧
    resolverValue (kindCode .ignored) opd a b c = 0 ∧
    ∀ kind : BitVec 2, resolverInvalid kind opd = true ↔ kind = kindCode .combo ∧ 7 ≤ opd.toNat

/-! ### The step -/

/-- When the two bytes at IP are those of a well-formed instruction, a Running block's step is exactly that instruction's
meaning (30_encoding.md section 4; the meaning itself moves IP). -/
def Obligations.StepRunsDecodedInstruction : Prop :=
  ∀ (s : State) (i : Instr), s.status = .running → s.ip + 1 < s.romLen →
    decode [opcodeAt s, operandAt s] = .ok (i, []) → step s = exec i s

/-- R105: the halt step. -/
def Obligations.HaltStepSetsStatusOnly : Prop :=
  ∀ s : State, s.status = .running → s.romLen ≤ s.ip → step s = .next { s with status := .halted }

/-- R106: MissingOperand, for every value of the opcode byte. -/
def Obligations.MissingOperandIsRaised : Prop :=
  ∀ s : State, s.status = .running → s.ip < s.romLen → s.romLen ≤ s.ip + 1 →
    step s = .next { s with status := .faulted .missingOperand }

/-- R107: IllegalOpcode, whatever the operand byte. -/
def Obligations.IllegalOpcodeIsRaised : Prop :=
  ∀ s : State, s.status = .running → s.ip + 1 < s.romLen → 8 ≤ (opcodeAt s).toNat →
    step s = .next { s with status := .faulted .illegalOpcode }

/-- R108: ReservedCombo is raised exactly when both bytes exist, the opcode byte is 0, 2, 5, 6 or 7 and the operand byte
is 7 or larger; so never by BXL, JNZ or BXC, and whatever the registers hold. -/
def Obligations.ReservedComboIsRaisedExactly : Prop :=
  ∀ s : State, s.status = .running →
    (step s = .next { s with status := .faulted .reservedCombo } ↔
      s.ip + 1 < s.romLen ∧ (opcodeAt s).toNat ∈ [0, 2, 5, 6, 7] ∧ 7 ≤ (operandAt s).toNat)

/-- R112: the stopping conditions are tested in the order halt, MissingOperand, IllegalOpcode, ReservedCombo, and where
none of them holds one instruction executes and the block stays Running. -/
def Obligations.StoppingConditionsInOrder : Prop :=
  ∀ s : State, s.status = .running →
    if s.romLen ≤ s.ip then step s = .next { s with status := .halted }
    else if s.romLen ≤ s.ip + 1 then step s = .next { s with status := .faulted .missingOperand }
    else if 8 ≤ (opcodeAt s).toNat then step s = .next { s with status := .faulted .illegalOpcode }
    else if (opcodeAt s).toNat ∈ [0, 2, 5, 6, 7] ∧ 7 ≤ (operandAt s).toNat then
      step s = .next { s with status := .faulted .reservedCombo }
    else ∃ i t, decode [opcodeAt s, operandAt s] = .ok (i, []) ∧ exec i s = .next t ∧ step s = .next t ∧
      t.status = .running

/-- R110: a fault sets STATUS and CAUSE and changes nothing else; IP still points at the faulting instruction and nothing
is appended to OUT. -/
def Obligations.FaultChangesStatusOnly : Prop :=
  ∀ (s t : State) (cause : Cause), step s = .next t → t.status = .faulted cause →
    t = { s with status := .faulted cause }

/-- R53: the step is total on Running states, with exactly three ways to end, and a Halted or Faulted block has no step. -/
def Obligations.RunningAlwaysStepsAndStoppedNever : Prop :=
  (∀ s : State, s.status = .running →
    ∃ t, step s = .next t ∧
      (t = { s with status := .halted } ∨ (∃ cause, t = { s with status := .faulted cause }) ∨
        (t.status = .running ∧ ∃ i, decode [opcodeAt s, operandAt s] = .ok (i, []) ∧ exec i s = .next t))) ∧
  (∀ s t : State, s.status ≠ .running → step s ≠ .next t)

/-! ### What each instruction does -/

/-- ADV completes on every operand that has a value, and takes ReservedCombo on the others. -/
def Obligations.AdvCompletes : Prop :=
  (∀ (o : Combo) (s : State) (v : Nat), comboValue o s = some v →
    exec (.adv o) s = .next { s with a := s.a / 2 ^ v, ip := s.ip + 2 }) ∧
  (∀ (x : Byte) (s : State), exec (.adv (.reserved x)) s = .next { s with status := .faulted .reservedCombo })

/-- BDV completes on every operand that has a value, and takes ReservedCombo on the others. -/
def Obligations.BdvCompletes : Prop :=
  (∀ (o : Combo) (s : State) (v : Nat), comboValue o s = some v →
    exec (.bdv o) s = .next { s with b := s.a / 2 ^ v, ip := s.ip + 2 }) ∧
  (∀ (x : Byte) (s : State), exec (.bdv (.reserved x)) s = .next { s with status := .faulted .reservedCombo })

/-- CDV completes on every operand that has a value, and takes ReservedCombo on the others. -/
def Obligations.CdvCompletes : Prop :=
  (∀ (o : Combo) (s : State) (v : Nat), comboValue o s = some v →
    exec (.cdv o) s = .next { s with c := s.a / 2 ^ v, ip := s.ip + 2 }) ∧
  (∀ (x : Byte) (s : State), exec (.cdv (.reserved x)) s = .next { s with status := .faulted .reservedCombo })

/-- BXL completes on every literal, 8 to 255 included. -/
def Obligations.BxlCompletes : Prop :=
  ∀ (literal : Byte) (s : State), exec (.bxl literal) s = .next { s with b := s.b ^^^ literal.toNat, ip := s.ip + 2 }

/-- BST completes on every operand that has a value, and takes ReservedCombo on the others. -/
def Obligations.BstCompletes : Prop :=
  (∀ (o : Combo) (s : State) (v : Nat), comboValue o s = some v →
    exec (.bst o) s = .next { s with b := v % 8, ip := s.ip + 2 }) ∧
  (∀ (x : Byte) (s : State), exec (.bst (.reserved x)) s = .next { s with status := .faulted .reservedCombo })

/-- BXC completes on every operand byte. -/
def Obligations.BxcCompletes : Prop :=
  ∀ (discarded : Byte) (s : State), exec (.bxc discarded) s = .next { s with b := s.b ^^^ s.c, ip := s.ip + 2 }

/-- JNZ completes, taken and not taken. -/
def Obligations.JnzCompletes : Prop :=
  ∀ (target : Byte) (s : State),
    (s.a ≠ 0 → exec (.jnz target) s = .next { s with ip := target.toNat }) ∧
    (s.a = 0 → exec (.jnz target) s = .next { s with ip := s.ip + 2 })

/-- OUT completes on every operand that has a value, and takes ReservedCombo on the others. -/
def Obligations.OutCompletes : Prop :=
  (∀ (o : Combo) (s : State) (v : Nat), comboValue o s = some v →
    exec (.out o) s = .next { s with out := s.out ++ [BitVec.ofNat 3 (v % 8)], ip := s.ip + 2 }) ∧
  (∀ (x : Byte) (s : State), exec (.out (.reserved x)) s = .next { s with status := .faulted .reservedCombo })

/-- R70, on the bytes at IP. -/
def Obligations.AdvByBytes : Prop :=
  ComboInstruction 0 fun v s => { s with a := s.a / 2 ^ v, ip := s.ip + 2 }

/-- R71, on the bytes at IP. -/
def Obligations.BdvByBytes : Prop :=
  ComboInstruction 6 fun v s => { s with b := s.a / 2 ^ v, ip := s.ip + 2 }

/-- R72, on the bytes at IP. -/
def Obligations.CdvByBytes : Prop :=
  ComboInstruction 7 fun v s => { s with c := s.a / 2 ^ v, ip := s.ip + 2 }

/-- R80, on the bytes at IP. -/
def Obligations.BxlByBytes : Prop :=
  ByteInstruction 1 fun opd s => { s with b := s.b ^^^ opd, ip := s.ip + 2 }

/-- R81, on the bytes at IP. -/
def Obligations.BstByBytes : Prop :=
  ComboInstruction 2 fun v s => { s with b := v % 8, ip := s.ip + 2 }

/-- R82, on the bytes at IP: the effect does not use the operand byte. -/
def Obligations.BxcByBytes : Prop :=
  ByteInstruction 4 fun _ s => { s with b := s.b ^^^ s.c, ip := s.ip + 2 }

/-- R92, on the bytes at IP: the target is not checked against ROM_LEN or for parity. -/
def Obligations.JnzByBytes : Prop :=
  ByteInstruction 3 fun opd s => if s.a ≠ 0 then { s with ip := opd } else { s with ip := s.ip + 2 }

/-- R100, on the bytes at IP. -/
def Obligations.OutByBytes : Prop :=
  ComboInstruction 5 fun v s => { s with out := s.out ++ [BitVec.ofNat 3 (v % 8)], ip := s.ip + 2 }

/-- R73 and R74: the quotient by a power of two is the logical right shift below the register width and 0 at and above it,
and is never larger than the numerator. -/
def Obligations.QuotientIsTheShift : Prop :=
  ∀ (p : Params) (a v : Nat), p.FitsReg a →
    divPow2 a v = a / 2 ^ v ∧ (v < p.xlen → divPow2 a v = a >>> v) ∧ (p.xlen ≤ v → divPow2 a v = 0) ∧ divPow2 a v ≤ a

/-- R143: where source and destination are the same register the old value is read. -/
def Obligations.OldValueIsRead : Prop :=
  ∀ s : State,
    exec (.adv (.reg .a)) s = .next { s with a := s.a / 2 ^ s.a, ip := s.ip + 2 } ∧
    exec (.bdv (.reg .b)) s = .next { s with b := s.a / 2 ^ s.b, ip := s.ip + 2 } ∧
    exec (.cdv (.reg .c)) s = .next { s with c := s.a / 2 ^ s.c, ip := s.ip + 2 } ∧
    exec (.bst (.reg .b)) s = .next { s with b := s.b % 8, ip := s.ip + 2 } ∧
    (∀ x, exec (.bxl x) s = .next { s with b := s.b ^^^ x.toNat, ip := s.ip + 2 }) ∧
    (∀ x, exec (.bxc x) s = .next { s with b := s.b ^^^ s.c, ip := s.ip + 2 })

/-- R60: BXC's operand byte must exist, for R52's line 2 applies to every opcode, and its value is not looked at. -/
def Obligations.BxcIgnoresOperandByte : Prop :=
  (∀ (x y : Byte) (s : State), exec (.bxc x) s = exec (.bxc y) s) ∧
  (∀ s : State, s.status = .running → opcodeAt s = 4 → s.ip + 1 < s.romLen → ∀ x, step s = exec (.bxc x) s) ∧
  (∀ s : State, s.status = .running → opcodeAt s = 4 → s.ip + 1 = s.romLen →
    step s = .next { s with status := .faulted .missingOperand })

/-! ### Frames -/

/-- R12: which instruction writes which register is fixed: every other register keeps its value. -/
def Obligations.RegisterWritersAreFixed : Prop :=
  ∀ (i : Instr) (s t : State) (r : Reg), exec i s = .next t → mayWrite i ≠ some r → readReg r t = readReg r s

/-- The rest of the frame of all eight instructions: no byte of the ROM and not ROM_LEN changes; OUT changes under the OUT
instruction alone; STATUS changes only to Faulted with ReservedCombo, and then on a reserved operand alone. -/
def Obligations.InstructionsKeepTheRest : Prop :=
  ∀ (i : Instr) (s t : State), exec i s = .next t →
    t.rom = s.rom ∧ t.romLen = s.romLen ∧ (∀ n, t.rom.read n = s.rom.read n) ∧
    ((∀ o, i ≠ .out o) → t.out = s.out) ∧
    (t.status = s.status ∨
      t.status = .faulted .reservedCombo ∧
        ∃ x, i = .adv (.reserved x) ∨ i = .bst (.reserved x) ∨ i = .out (.reserved x) ∨ i = .bdv (.reserved x) ∨
          i = .cdv (.reserved x))

/-- Instruction fetch always returns the bytes LOAD put in the ROM: after any run from a LOAD the ROM is the program that
was loaded (20_memory.md section 6). -/
def Obligations.FetchReturnsTheLoadedBytes : Prop :=
  ∀ (p : Params) (args : LoadArgs) (s loaded t : State), load p args s = .next loaded → Reaches loaded t →
    t.romLen = args.rom.length ∧ ∀ n < t.romLen, args.rom[n]? = some (t.rom.read n)

/-- R15: an executed instruction leaves IP + 2, but for a JNZ whose condition holds, which leaves the literal operand; the
halt step and a fault leave IP unchanged. -/
def Obligations.IpAdvancesByTwoOrJumps : Prop :=
  ∀ s t : State, step s = .next t →
    (t.status ≠ .running → t.ip = s.ip) ∧
    (t.status = .running →
      if opcodeAt s = 3 ∧ s.a ≠ 0 then t.ip = (operandAt s).toNat else t.ip = s.ip + 2)

/-- One step appends to OUT exactly the element that the out stream presents: one for an executed OUT instruction, the low
three bits of its operand, and none for any other step (70_reset_and_hazards.md section 1). -/
def Obligations.OutStreamIsOut : Prop :=
  ∀ s t : State, step s = .next t →
    t.out = s.out ++ presented s ∧
    presented s =
      if s.ip + 1 < s.romLen ∧ opcodeAt s = 5 then
        match comboByte (operandAt s) s with
        | some v => [BitVec.ofNat 3 (v % 8)]
        | none => []
      else []

/-- OUT only grows: along any run the earlier sequence is a prefix of the later (10_state.md section 10). -/
def Obligations.OutOnlyGrows : Prop :=
  ∀ s t : State, Reaches s t → s.out <+: t.out

/-- No instruction reads OUT and no step depends on it: with other elements in front, the same step is taken
(10_state.md section 1). -/
def Obligations.NothingReadsOut : Prop :=
  ∀ (s t : State) (front : List OutVal), step s = .next t →
    step { s with out := front ++ s.out } = .next { t with out := front ++ t.out }

/-- Whether and how a step faults depends on the ROM and IP and on no register value: of two Running states that agree on
these, one faults with a cause exactly when the other does (60_exceptions.md section 4). -/
def Obligations.FaultsIgnoreRegisters : Prop :=
  ∀ (s s' t t' : State) (cause : Cause), s.rom = s'.rom → s.romLen = s'.romLen → s.ip = s'.ip →
    step s = .next t → step s' = .next t' →
    (t.status = .faulted cause ↔ t'.status = .faulted cause)

/-! ### LOAD, reset and the ports -/

/-- R131: the effect of LOAD on a block in any STATUS, and nothing of the previous run survives it. -/
def Obligations.LoadSetsEveryElement : Prop :=
  ∀ (p : Params) (args : LoadArgs), args.Fits p →
    ∃ t : State, (∀ s : State, load p args s = .next t) ∧
      t.a = args.a0 ∧ t.b = args.b0 ∧ t.c = args.c0 ∧ t.ip = 0 ∧ t.out = [] ∧ t.status = .running ∧
      t.status.causeCode = 0 ∧ t.romLen = args.rom.length ∧
      ∀ n < t.romLen, args.rom[n]? = some (t.rom.read n)

/-- R132: LOAD takes every argument that fits the ports, whatever the program is, and the model refuses every other. -/
def Obligations.LoadTakesWhatFitsOnly : Prop :=
  ∀ (p : Params) (args : LoadArgs) (s : State),
    (args.a0 ≤ 2 ^ p.xlen - 1 ∧ args.b0 ≤ 2 ^ p.xlen - 1 ∧ args.c0 ≤ 2 ^ p.xlen - 1 ∧
        args.rom.length ≤ 2 ^ p.ipw - 1 → ∃ t, load p args s = .next t) ∧
    (¬ (args.a0 ≤ 2 ^ p.xlen - 1 ∧ args.b0 ≤ 2 ^ p.xlen - 1 ∧ args.c0 ≤ 2 ^ p.xlen - 1 ∧
        args.rom.length ≤ 2 ^ p.ipw - 1) → load p args s = .refused .loadDoesNotFit)

/-- The model's choice of the state after reset (log entry 4): it is what the LOAD of an empty ROM with zeros leaves, on
a block of any legal widths. IP, OUT and STATUS are 10_state.md section 9's values for every LOAD. -/
def Obligations.ResetIsAnEmptyLoad : Prop :=
  ∀ (p : Params) (s : State),
    load p { rom := [], a0 := 0, b0 := 0, c0 := 0 } s = .next Sys2Proof.core.reset ∧
    State.reset.ip = 0 ∧ State.reset.out = [] ∧ State.reset.status = .running

/-- The host's view: STATUS reads 0, 1 or 2 and never 3, and CAUSE reads 0 unless STATUS is 2 and then 1, 2 or 3; registers
that fit the widths are read whole (10_state.md section 5, 70_reset_and_hazards.md section 1). -/
def Obligations.PortsShowTheState : Prop :=
  ∀ (p : Params) (s : State),
    ((ports p s).status = 0 ↔ s.status = .running) ∧
    ((ports p s).status = 1 ↔ s.status = .halted) ∧
    ((ports p s).status = 2 ↔ ∃ cause, s.status = .faulted cause) ∧
    (ports p s).status ≠ 3 ∧
    ((ports p s).cause = 0 ↔ (ports p s).status ≠ 2) ∧
    ((ports p s).cause = 1 ↔ s.status = .faulted .missingOperand) ∧
    ((ports p s).cause = 2 ↔ s.status = .faulted .illegalOpcode) ∧
    ((ports p s).cause = 3 ↔ s.status = .faulted .reservedCombo) ∧
    (ports p s).out = s.out ∧
    (p.FitsReg s.a → (ports p s).a.toNat = s.a) ∧ (p.FitsReg s.b → (ports p s).b.toNat = s.b) ∧
    (p.FitsReg s.c → (ports p s).c.toNat = s.c) ∧ (p.FitsIp s.ip → (ports p s).ip.toNat = s.ip)

/-- Placing a table word at the fetch (the model's own stand-in for a LOAD, log entry 5) makes the next step run exactly
the instruction that the decoder reads from the word, and changes no other cell. -/
def Obligations.PlacedWordRunsNext : Prop :=
  ∀ (s : State) (w : Nat) (i : Instr), s.rom.wf = true → decodeTableWord 16 w = some i →
    step (s.withFetchWord 16 w) = exec i (s.withFetchWord 16 w) ∧
    ∀ n, n ≠ s.ip → n ≠ s.ip + 1 → (s.withFetchWord 16 w).rom.read n = s.rom.read n

/-! ### Invariants and runs -/

/-- The state after reset meets the invariant, for a block of any widths. -/
def Obligations.ResetMeetsInvariant : Prop :=
  ∀ p : Params, Inv p State.reset

/-- Every LOAD leaves a state that meets the invariant. -/
def Obligations.LoadMeetsInvariant : Prop :=
  ∀ (p : Params) (args : LoadArgs) (s t : State), load p args s = .next t → Inv p t

/-- Every step keeps the invariant, from every state that meets it: the registers stay within XLEN bits and IP within
max(ROM_LEN, 255), the ROM keeps its form, and IP stands where STATUS and CAUSE say (10_state.md section 10). -/
def Obligations.StepKeepsInvariant : Prop :=
  ∀ (p : Params) (s t : State), p.Legal → Inv p s → step s = .next t → Inv p t

/-- On a block of legal widths no value ever exceeds its field: after a LOAD and any further steps and LOADs, A, B and C
are below 2^XLEN and IP is below 2^IPW, so there is no wrap-around or truncation (00_scope.md section 4). -/
def Obligations.NothingEverWraps : Prop :=
  ∀ (p : Params) (args : LoadArgs) (later : List Event) (s t : State), p.Legal →
    afterEvents p (.load args :: later) s = .next t →
    p.FitsReg t.a ∧ p.FitsReg t.b ∧ p.FitsReg t.c ∧ p.FitsIp t.ip ∧ t.ip ≤ max t.romLen 255

/-- A well-formed program whose jump literals are even keeps IP even and never faults, and each of its runs can always go on
until it halts (30_encoding.md section 6). -/
def Obligations.WellFormedProgramsNeverFault : Prop :=
  ∀ (p : Params) (args : LoadArgs) (s loaded t : State), RomWellFormed args.rom → RomEvenJumps args.rom →
    load p args s = .next loaded → Reaches loaded t →
    NeverFaults loaded ∧ t.ip % 2 = 0 ∧ (t.status = .halted ∨ ∃ u, step t = .next u)

/-- Every step keeps "the ROM meets (a) to (d), IP is even, STATUS is not Faulted", from every state that meets it, and every
LOAD of a program that meets (a) to (d) leaves a state that meets it (30_encoding.md section 6; condition (d) and the
conclusion are the spec's own derivation). -/
def Obligations.StepKeepsWellFormedRun : Prop :=
  (∀ s t : State, WellFormedRun s → step s = .next t → WellFormedRun t) ∧
  (∀ (p : Params) (args : LoadArgs) (s t : State), RomWellFormed args.rom → RomEvenJumps args.rom →
    load p args s = .next t → WellFormedRun t)

/-- R140: a run that reaches Halted has the tuple (OUT, A, B, C, IP) there as its result, and no other; a run that reaches
a Faulted state and a run that never leaves Running have none. -/
def Obligations.ResultOfARun : Prop :=
  (∀ s t : State, Reaches s t → t.status = .halted →
    ∀ r, HasResult s r ↔ r = { out := t.out, a := t.a, b := t.b, c := t.c, ip := t.ip }) ∧
  (∀ (s t : State) (cause : Cause), Reaches s t → t.status = .faulted cause → ∀ r, ¬ HasResult s r) ∧
  (∀ s : State, (∀ t, Reaches s t → t.status = .running) → ∀ r, ¬ HasResult s r)

/-- A JNZ whose target is its own offset, with A not zero, repeats for ever: the block never leaves that state, so it stays
Running and its run has no result (42_control.md sections 2 and 3). -/
def Obligations.JumpToItselfRunsForever : Prop :=
  ∀ s t : State, s.status = .running → s.ip + 1 < s.romLen → opcodeAt s = 3 → (operandAt s).toNat = s.ip → s.a ≠ 0 →
    Reaches s t → t = s ∧ ∀ r, ¬ HasResult s r

/-- The block as hardware, with registers of XLEN and IPW bits, the resolver as a multiplexer and the dispatch table as
control signals, takes the same step as the model on every state that meets the invariant
(00_scope.md section 4, 30_encoding.md sections 2 to 4). -/
def Obligations.DatapathTakesTheSameStep : Prop :=
  ∀ (p : Params) (s : State), p.Legal → Inv p s →
    bitStep (bitsOf p s) =
      match step s with
      | .next t => some (bitsOf p t)
      | _ => none

/-- No two states that meet the invariant look the same in bits, so the agreement above loses nothing. -/
def Obligations.BitsDetermineTheState : Prop :=
  ∀ (p : Params) (s s' : State), p.Legal → Inv p s → Inv p s' → bitsOf p s = bitsOf p s' → s = s'

/-- The search procedure of R141, begun at any candidate (R141's begins at 0): what it finds is a candidate whose run halts
with OUT equal to the ROM, and no smaller candidate from where it began has a run that does. It is about the host and not
the block (log entry 9). -/
def Obligations.SearchFindsTheLeastCandidate : Prop :=
  ∀ (p : Params) (rom : List Byte) (b0 c0 runFuel tries first n : Nat) (s : State),
    searchFrom p rom b0 c0 runFuel tries first s = .found n →
    (∃ r, HasResult (loadedState { rom := rom, a0 := n, b0 := b0, c0 := c0 }) r ∧
      r.out.map BitVec.toNat = rom.map BitVec.toNat) ∧
    first ≤ n ∧
    ∀ m, first ≤ m → m < n → ∀ r, HasResult (loadedState { rom := rom, a0 := m, b0 := b0, c0 := c0 }) r →
      r.out.map BitVec.toNat ≠ rom.map BitVec.toNat
end

