-- ==== Sys2Proof/Laws/Decode.lean ====
section
/-! SUPPORT. The small laws of the operand codec and of the decoder. -/

namespace Sys2Proof

/-- Reading a byte as a combo operand and writing it back gives the byte. -/
@[simp] theorem Combo.toByte_ofByte (byte : Byte) : (Combo.ofByte byte).toByte = byte := by
  revert byte; decide

/-- The decoder makes well-formed combo operands only. -/
@[simp] theorem Combo.wf_ofByte (byte : Byte) : (Combo.ofByte byte).wf = true := by
  revert byte; decide

/-- A byte below 7 is a combo operand with a value; a byte of 7 to 255 is reserved (R49, R56, R57). -/
theorem Combo.ofByte_of_reserved {byte : Byte} (h : 7 ≤ byte.toNat) : Combo.ofByte byte = .reserved byte := by
  revert byte; decide

theorem Combo.ofByte_ne_reserved {byte : Byte} (h : byte.toNat < 7) (x : Byte) : Combo.ofByte byte ≠ .reserved x := by
  revert byte
  have : ∀ y : Byte, y.toNat < 7 → (∃ n, Combo.ofByte y = .imm n) ∨ ∃ r, Combo.ofByte y = .reg r := by
    intro y hy
    unfold Combo.ofByte
    split <;> first | exact .inl ⟨_, rfl⟩ | exact .inr ⟨_, rfl⟩ | skip
    exfalso; simp_all; omega
  intro y hy e
  rcases this y hy with ⟨n, h⟩ | ⟨r, h⟩ <;> rw [h] at e <;> cases e

@[simp] theorem decode_nil : decode [] = .error .noOpcode := rfl

@[simp] theorem decode_single (b : Byte) : decode [b] = .error .noOperand := rfl

/-- Decoding two bytes and more reads the first two. -/
theorem decode_pair (x y : Byte) (rest : List Byte) :
    decode (x :: y :: rest) = (decodePair x y).map fun i => (i, rest) := by
  simp only [decode]
  cases decodePair x y <;> rfl

/-- What `decodePair` answers, by the opcode byte (R54, R55). -/
theorem decodePair_illegal {x : Byte} (y : Byte) (h : 8 ≤ x.toNat) : decodePair x y = .error (.illegalOpcode x) := by
  unfold decodePair
  split <;> first | rfl | omega

theorem decodePair_legal {x : Byte} (y : Byte) (h : x.toNat < 8) :
    ∃ i, decodePair x y = .ok i ∧ i.opcode = x ∧ i.operand = y ∧ i.wf = true := by
  unfold decodePair
  split <;> first
    | exact ⟨_, rfl, BitVec.eq_of_toNat_eq (by simp_all [Instr.opcode]), by simp [Instr.operand], by simp [Instr.wf]⟩
    | (exfalso; simp_all; omega)

end Sys2Proof
end

