-- ==== Sys2Proof/Laws/Memory.lean ====
section
/-! SUPPORT. The laws of the ROM space: read after write, every operation keeps the canonical form, and the memory made
of a byte sequence reads as that sequence. -/

namespace Sys2Proof.Machine

@[simp] theorem Memory.read_nil (n : Nat) : Memory.read [] n = 0 := rfl

theorem Memory.read_cons (cell : Host.Cell) (m : Memory) (n : Nat) :
    Memory.read (cell :: m) n = if cell.1 = n then cell.2 else Memory.read m n := rfl

theorem Memory.canonicalFrom_cons (low : Nat) (cell : Host.Cell) (m : Memory) :
    Memory.canonicalFrom low (cell :: m) = true ↔
      low ≤ cell.1 ∧ cell.2 ≠ 0 ∧ Memory.canonicalFrom (cell.1 + 1) m = true := by
  simp only [Memory.canonicalFrom, Bool.and_eq_true, decide_eq_true_eq, bne_iff_ne, and_assoc]

/-- A canonical memory lists nothing below its bound, so it reads 0 there. -/
theorem Memory.read_eq_zero_of_lt {low n : Nat} {m : Memory} (h : Memory.canonicalFrom low m = true) (hn : n < low) :
    Memory.read m n = 0 := by
  induction m generalizing low with
  | nil => rfl
  | cons cell m ih =>
    rw [Memory.canonicalFrom_cons] at h
    rw [Memory.read_cons, if_neg (by omega)]
    exact ih h.2.2 (by omega)

/-- A lower bound on the offsets may be lowered. -/
theorem Memory.canonicalFrom_mono {low low' : Nat} {m : Memory} (h : Memory.canonicalFrom low m = true)
    (hl : low' ≤ low) : Memory.canonicalFrom low' m = true := by
  cases m with
  | nil => rfl
  | cons cell m =>
    rw [Memory.canonicalFrom_cons] at h ⊢
    exact ⟨by omega, h.2⟩

theorem Memory.canonicalFrom_insert {low offset : Nat} {byte : Byte} (hb : byte ≠ 0) {m : Memory}
    (h : Memory.canonicalFrom low m = true) (hl : low ≤ offset) :
    Memory.canonicalFrom low (Memory.insert offset byte m) = true := by
  induction m generalizing low with
  | nil => exact (Memory.canonicalFrom_cons _ _ _).2 ⟨hl, hb, rfl⟩
  | cons cell m ih =>
    rw [Memory.canonicalFrom_cons] at h
    unfold Memory.insert
    split
    · next hlt =>
      rw [Memory.canonicalFrom_cons, Memory.canonicalFrom_cons]
      exact ⟨hl, hb, Nat.succ_le_of_lt hlt, h.2⟩
    · split
      · next heq => subst heq; exact (Memory.canonicalFrom_cons _ _ _).2 ⟨hl, hb, h.2.2⟩
      · exact (Memory.canonicalFrom_cons _ _ _).2 ⟨h.1, h.2.1, ih h.2.2 (by omega)⟩

theorem Memory.canonicalFrom_erase {low offset : Nat} {m : Memory} (h : Memory.canonicalFrom low m = true) :
    Memory.canonicalFrom low (Memory.erase offset m) = true := by
  induction m generalizing low with
  | nil => rfl
  | cons cell m ih =>
    rw [Memory.canonicalFrom_cons] at h
    unfold Memory.erase
    split
    · exact Memory.canonicalFrom_mono h.2.2 (by omega)
    · exact (Memory.canonicalFrom_cons _ _ _).2 ⟨h.1, h.2.1, ih h.2.2⟩

/-- A write keeps the canonical form. -/
theorem Memory.wf_write {m : Memory} (h : m.wf = true) (offset : Nat) (byte : Byte) :
    (m.write offset byte).wf = true := by
  unfold Memory.write
  split
  · exact Memory.canonicalFrom_erase h
  · next hb => exact Memory.canonicalFrom_insert hb h (Nat.zero_le _)

theorem Memory.canonicalFrom_ofBytesFrom (n : Nat) (bytes : List Byte) :
    Memory.canonicalFrom n (Memory.ofBytesFrom n bytes) = true := by
  induction bytes generalizing n with
  | nil => rfl
  | cons byte bytes ih =>
    unfold Memory.ofBytesFrom
    split
    · exact Memory.canonicalFrom_mono (ih (n + 1)) (Nat.le_succ n)
    · next hb => exact (Memory.canonicalFrom_cons _ _ _).2 ⟨le_refl n, hb, ih (n + 1)⟩

/-- LOAD's memory is canonical. -/
theorem Memory.wf_ofBytes (bytes : List Byte) : (Memory.ofBytes bytes).wf = true :=
  Memory.canonicalFrom_ofBytesFrom 0 bytes

/-- The memory after reset is canonical. -/
theorem Memory.wf_reset : State.reset.rom.wf = true := rfl

theorem Memory.read_insert (m : Memory) (offset : Nat) (byte : Byte) (n : Nat) :
    Memory.read (Memory.insert offset byte m) n = if offset = n then byte else Memory.read m n := by
  induction m with
  | nil => rfl
  | cons cell m ih =>
    unfold Memory.insert
    split
    · rfl
    · split
      · next heq => simp only [Memory.read_cons]; split <;> simp_all
      · simp only [Memory.read_cons, ih]; split <;> split <;> simp_all

theorem Memory.read_erase {low : Nat} {m : Memory} (h : Memory.canonicalFrom low m = true) (offset n : Nat) :
    Memory.read (Memory.erase offset m) n = if offset = n then 0 else Memory.read m n := by
  induction m generalizing low with
  | nil => simp [Memory.erase]
  | cons cell m ih =>
    rw [Memory.canonicalFrom_cons] at h
    unfold Memory.erase
    split
    · next heq =>
      subst heq
      rw [Memory.read_cons]
      split
      · next hn => exact Memory.read_eq_zero_of_lt h.2.2 (by omega)
      · rfl
    · simp only [Memory.read_cons, ih h.2.2]; split <;> split <;> simp_all

/-- Read after write, on a canonical memory: the byte written at its offset, the old byte everywhere else. -/
theorem Memory.read_write {m : Memory} (h : m.wf = true) (offset : Nat) (byte : Byte) (n : Nat) :
    Memory.read (m.write offset byte) n = if offset = n then byte else Memory.read m n := by
  unfold Memory.write
  split
  · next hb => subst hb; exact Memory.read_erase h offset n
  · exact Memory.read_insert m offset byte n

theorem Memory.read_ofBytesFrom (n k : Nat) (bytes : List Byte) :
    Memory.read (Memory.ofBytesFrom n bytes) (n + k) = bytes.getD k 0 := by
  induction bytes generalizing n k with
  | nil => simp [Memory.ofBytesFrom]
  | cons byte bytes ih =>
    unfold Memory.ofBytesFrom
    cases k with
    | zero =>
      split
      · next hb =>
        rw [Memory.read_eq_zero_of_lt (Memory.canonicalFrom_ofBytesFrom (n + 1) bytes) (by omega)]
        simp [hb]
      · simp [Memory.read_cons]
    | succ k =>
      have shift : n + (k + 1) = n + 1 + k := by omega
      split
      · rw [shift, ih]; simp
      · rw [Memory.read_cons, if_neg (by simp), shift, ih]; simp

/-- The ROM that LOAD makes reads as the byte sequence it was given. -/
@[simp] theorem Memory.read_ofBytes (bytes : List Byte) (k : Nat) :
    Memory.read (Memory.ofBytes bytes) k = bytes.getD k 0 := by
  simpa [Memory.ofBytes] using Memory.read_ofBytesFrom 0 k bytes

theorem Memory.below_ofBytesFrom (n : Nat) (bytes : List Byte) :
    Memory.below (n + bytes.length) (Memory.ofBytesFrom n bytes) = true := by
  induction bytes generalizing n with
  | nil => rfl
  | cons byte bytes ih =>
    have shift : n + (byte :: bytes).length = n + 1 + bytes.length := by simp; omega
    unfold Memory.ofBytesFrom
    split
    · rw [shift]; exact ih (n + 1)
    · have rest := ih (n + 1)
      rw [← shift] at rest
      simp only [Memory.below, List.all_cons, Bool.and_eq_true, decide_eq_true_eq] at rest ⊢
      exact ⟨by simp, rest⟩

/-- LOAD lists no cell at or past ROM_LEN. -/
theorem Memory.below_ofBytes (bytes : List Byte) : Memory.below bytes.length (Memory.ofBytes bytes) = true := by
  simpa [Memory.ofBytes] using Memory.below_ofBytesFrom 0 bytes

/-- Equal memories are equal data: two canonical memories that read alike everywhere are the same list. -/
theorem Memory.eq_of_read_eq {low : Nat} {m m' : Memory} (h : Memory.canonicalFrom low m = true)
    (h' : Memory.canonicalFrom low m' = true) (same : ∀ n, Memory.read m n = Memory.read m' n) : m = m' := by
  induction m generalizing low m' with
  | nil =>
    cases m' with
    | nil => rfl
    | cons cell' m' =>
      rw [Memory.canonicalFrom_cons] at h'
      have := same cell'.1
      simp [Memory.read_cons] at this
      exact absurd this.symm h'.2.1
  | cons cell m ih =>
    rw [Memory.canonicalFrom_cons] at h
    cases m' with
    | nil =>
      have := same cell.1
      simp [Memory.read_cons] at this
      exact absurd this h.2.1
    | cons cell' m' =>
      rw [Memory.canonicalFrom_cons] at h'
      have here := same cell.1
      have there := same cell'.1
      simp only [Memory.read_cons, if_true] at here there
      have offsets : cell'.1 = cell.1 := by
        by_contra hne
        rw [if_neg hne] at here
        rw [if_neg (Ne.symm hne)] at there
        rcases Nat.lt_or_gt_of_ne hne with hlt | hlt
        · rw [Memory.read_eq_zero_of_lt h.2.2 (by omega)] at there
          exact h'.2.1 there.symm
        · rw [Memory.read_eq_zero_of_lt h'.2.2 (by omega)] at here
          exact h.2.1 here
      rw [if_pos offsets] at here
      have cells : cell = cell' := Prod.ext offsets.symm here
      subst cells
      congr 1
      refine ih h.2.2 h'.2.2 fun n => ?_
      rcases Nat.lt_or_ge n (cell.1 + 1) with hn | hn
      · rw [Memory.read_eq_zero_of_lt h.2.2 hn, Memory.read_eq_zero_of_lt h'.2.2 hn]
      · have := same n
        simpa only [Memory.read_cons, if_neg (show cell.1 ≠ n by omega)] using this

end Sys2Proof.Machine
end

