-- ==== Sys2Proof/Laws/State.lean ====
section
/-! SUPPORT. What each named update of State does to each field, and that reads of a register after a write give the
value written or the old value. Later proofs simplify with these and unfold no record update. -/

namespace Sys2Proof.Machine


@[simp] theorem advance_a (s : State) : (advance s).a = s.a := rfl
@[simp] theorem advance_b (s : State) : (advance s).b = s.b := rfl
@[simp] theorem advance_c (s : State) : (advance s).c = s.c := rfl
@[simp] theorem advance_ip (s : State) : (advance s).ip = s.ip + 2 := rfl
@[simp] theorem advance_out (s : State) : (advance s).out = s.out := rfl
@[simp] theorem advance_status (s : State) : (advance s).status = s.status := rfl
@[simp] theorem advance_rom (s : State) : (advance s).rom = s.rom := rfl
@[simp] theorem advance_romLen (s : State) : (advance s).romLen = s.romLen := rfl

@[simp] theorem jumpTo_a (target : Nat) (s : State) : (jumpTo target s).a = s.a := rfl
@[simp] theorem jumpTo_b (target : Nat) (s : State) : (jumpTo target s).b = s.b := rfl
@[simp] theorem jumpTo_c (target : Nat) (s : State) : (jumpTo target s).c = s.c := rfl
@[simp] theorem jumpTo_ip (target : Nat) (s : State) : (jumpTo target s).ip = target := rfl
@[simp] theorem jumpTo_out (target : Nat) (s : State) : (jumpTo target s).out = s.out := rfl
@[simp] theorem jumpTo_status (target : Nat) (s : State) : (jumpTo target s).status = s.status := rfl
@[simp] theorem jumpTo_rom (target : Nat) (s : State) : (jumpTo target s).rom = s.rom := rfl
@[simp] theorem jumpTo_romLen (target : Nat) (s : State) : (jumpTo target s).romLen = s.romLen := rfl

@[simp] theorem outAppend_a (v : OutVal) (s : State) : (outAppend v s).a = s.a := rfl
@[simp] theorem outAppend_b (v : OutVal) (s : State) : (outAppend v s).b = s.b := rfl
@[simp] theorem outAppend_c (v : OutVal) (s : State) : (outAppend v s).c = s.c := rfl
@[simp] theorem outAppend_ip (v : OutVal) (s : State) : (outAppend v s).ip = s.ip := rfl
@[simp] theorem outAppend_out (v : OutVal) (s : State) : (outAppend v s).out = s.out ++ [v] := rfl
@[simp] theorem outAppend_status (v : OutVal) (s : State) : (outAppend v s).status = s.status := rfl
@[simp] theorem outAppend_rom (v : OutVal) (s : State) : (outAppend v s).rom = s.rom := rfl
@[simp] theorem outAppend_romLen (v : OutVal) (s : State) : (outAppend v s).romLen = s.romLen := rfl

@[simp] theorem halt_a (s : State) : (halt s).a = s.a := rfl
@[simp] theorem halt_b (s : State) : (halt s).b = s.b := rfl
@[simp] theorem halt_c (s : State) : (halt s).c = s.c := rfl
@[simp] theorem halt_ip (s : State) : (halt s).ip = s.ip := rfl
@[simp] theorem halt_out (s : State) : (halt s).out = s.out := rfl
@[simp] theorem halt_status (s : State) : (halt s).status = .halted := rfl
@[simp] theorem halt_rom (s : State) : (halt s).rom = s.rom := rfl
@[simp] theorem halt_romLen (s : State) : (halt s).romLen = s.romLen := rfl

@[simp] theorem raiseFault_a (cause : Cause) (s : State) : (raiseFault cause s).a = s.a := rfl
@[simp] theorem raiseFault_b (cause : Cause) (s : State) : (raiseFault cause s).b = s.b := rfl
@[simp] theorem raiseFault_c (cause : Cause) (s : State) : (raiseFault cause s).c = s.c := rfl
@[simp] theorem raiseFault_ip (cause : Cause) (s : State) : (raiseFault cause s).ip = s.ip := rfl
@[simp] theorem raiseFault_out (cause : Cause) (s : State) : (raiseFault cause s).out = s.out := rfl
@[simp] theorem raiseFault_status (cause : Cause) (s : State) : (raiseFault cause s).status = .faulted cause := rfl
@[simp] theorem raiseFault_rom (cause : Cause) (s : State) : (raiseFault cause s).rom = s.rom := rfl
@[simp] theorem raiseFault_romLen (cause : Cause) (s : State) : (raiseFault cause s).romLen = s.romLen := rfl

@[simp] theorem placeInstruction_a (x y : Byte) (s : State) : (placeInstruction x y s).a = s.a := rfl
@[simp] theorem placeInstruction_b (x y : Byte) (s : State) : (placeInstruction x y s).b = s.b := rfl
@[simp] theorem placeInstruction_c (x y : Byte) (s : State) : (placeInstruction x y s).c = s.c := rfl
@[simp] theorem placeInstruction_ip (x y : Byte) (s : State) : (placeInstruction x y s).ip = s.ip := rfl
@[simp] theorem placeInstruction_out (x y : Byte) (s : State) : (placeInstruction x y s).out = s.out := rfl
@[simp] theorem placeInstruction_status (x y : Byte) (s : State) : (placeInstruction x y s).status = .running := rfl
@[simp] theorem placeInstruction_rom (x y : Byte) (s : State) : (placeInstruction x y s).rom = (s.rom.write s.ip x).write (s.ip + 1) y := rfl
@[simp] theorem placeInstruction_romLen (x y : Byte) (s : State) : (placeInstruction x y s).romLen = max s.romLen (s.ip + 2) := rfl

@[simp] theorem writeReg_a_a (v : Nat) (s : State) : (writeReg .a v s).a = v := rfl
@[simp] theorem writeReg_a_b (v : Nat) (s : State) : (writeReg .a v s).b = s.b := rfl
@[simp] theorem writeReg_a_c (v : Nat) (s : State) : (writeReg .a v s).c = s.c := rfl
@[simp] theorem writeReg_b_a (v : Nat) (s : State) : (writeReg .b v s).a = s.a := rfl
@[simp] theorem writeReg_b_b (v : Nat) (s : State) : (writeReg .b v s).b = v := rfl
@[simp] theorem writeReg_b_c (v : Nat) (s : State) : (writeReg .b v s).c = s.c := rfl
@[simp] theorem writeReg_c_a (v : Nat) (s : State) : (writeReg .c v s).a = s.a := rfl
@[simp] theorem writeReg_c_b (v : Nat) (s : State) : (writeReg .c v s).b = s.b := rfl
@[simp] theorem writeReg_c_c (v : Nat) (s : State) : (writeReg .c v s).c = v := rfl

@[simp] theorem writeReg_ip (r : Reg) (v : Nat) (s : State) : (writeReg r v s).ip = s.ip := by cases r <;> rfl
@[simp] theorem writeReg_out (r : Reg) (v : Nat) (s : State) : (writeReg r v s).out = s.out := by cases r <;> rfl
@[simp] theorem writeReg_status (r : Reg) (v : Nat) (s : State) : (writeReg r v s).status = s.status := by cases r <;> rfl
@[simp] theorem writeReg_rom (r : Reg) (v : Nat) (s : State) : (writeReg r v s).rom = s.rom := by cases r <;> rfl
@[simp] theorem writeReg_romLen (r : Reg) (v : Nat) (s : State) : (writeReg r v s).romLen = s.romLen := by cases r <;> rfl

@[simp] theorem readReg_a (s : State) : readReg .a s = s.a := rfl
@[simp] theorem readReg_b (s : State) : readReg .b s = s.b := rfl
@[simp] theorem readReg_c (s : State) : readReg .c s = s.c := rfl

@[simp] theorem readReg_writeReg (r : Reg) (v : Nat) (s : State) : readReg r (writeReg r v s) = v := by
  cases r <;> rfl

theorem readReg_writeReg_of_ne {r q : Reg} (h : q ≠ r) (v : Nat) (s : State) :
    readReg q (writeReg r v s) = readReg q s := by
  cases q <;> cases r <;> first | rfl | exact absurd rfl h

@[simp] theorem readReg_advance (r : Reg) (s : State) : readReg r (advance s) = readReg r s := by
  cases r <;> rfl

@[simp] theorem readReg_jumpTo (r : Reg) (target : Nat) (s : State) : readReg r (jumpTo target s) = readReg r s := by
  cases r <;> rfl

@[simp] theorem readReg_outAppend (r : Reg) (v : OutVal) (s : State) : readReg r (outAppend v s) = readReg r s := by
  cases r <;> rfl

@[simp] theorem readReg_raiseFault (r : Reg) (cause : Cause) (s : State) :
    readReg r (raiseFault cause s) = readReg r s := by
  cases r <;> rfl

end Sys2Proof.Machine
end

