-- ==== Sys2Proof/Laws/Ops.lean ====
section
/-! SUPPORT. One lemma per shared operation: what the fetch finds, what `withCombo` can answer, and the arithmetic the
operations stand for. -/

namespace Sys2Proof.Machine

theorem fetchBytes_past {s : State} (h : s.romLen ≤ s.ip) : fetchBytes s = [] := by simp [fetchBytes, h]

theorem fetchBytes_last {s : State} (h : s.ip + 1 = s.romLen) : fetchBytes s = [s.rom.read s.ip] := by
  simp [fetchBytes, show ¬ s.romLen ≤ s.ip by omega, show s.romLen ≤ s.ip + 1 by omega]

theorem fetchBytes_pair {s : State} (h : s.ip + 1 < s.romLen) :
    fetchBytes s = [s.rom.read s.ip, s.rom.read (s.ip + 1)] := by
  simp [fetchBytes, show ¬ s.romLen ≤ s.ip by omega, show ¬ s.romLen ≤ s.ip + 1 by omega]

@[simp] theorem comboValue_imm (n : BitVec 2) (s : State) : comboValue (.imm n) s = some n.toNat := rfl

@[simp] theorem comboValue_reg (r : Reg) (s : State) : comboValue (.reg r) s = some (readReg r s) := rfl

@[simp] theorem comboValue_reserved (x : Byte) (s : State) : comboValue (.reserved x) s = none := rfl

/-- `withCombo` on an operand that has a value. -/
theorem withCombo_value {o : Combo} {s : State} {v : Nat} (h : comboValue o s = some v) (effect : Nat → State) :
    withCombo o s effect = .next (effect v) := by
  simp [withCombo, h]

/-- `withCombo` on a reserved operand. -/
@[simp] theorem withCombo_reserved (x : Byte) (s : State) (effect : Nat → State) :
    withCombo (.reserved x) s effect = .next (raiseFault .reservedCombo s) := rfl

/-- Everything `withCombo` can do: it always answers a next state, the effect on the operand's value or the fault. -/
theorem withCombo_cases {o : Combo} {s t : State} {effect : Nat → State} (h : withCombo o s effect = .next t) :
    (∃ v, comboValue o s = some v ∧ t = effect v) ∨ (comboValue o s = none ∧ t = raiseFault .reservedCombo s) := by
  unfold withCombo at h
  split at h
  · next v hv => cases h; exact .inl ⟨v, hv, rfl⟩
  · next hn => cases h; exact .inr ⟨hn, rfl⟩

/-- The shift is the quotient by the power of two (R73). -/
theorem divPow2_eq_div (a v : Nat) : divPow2 a v = a / 2 ^ v := Nat.shiftRight_eq_div_pow a v

/-- The quotient is no larger than the numerator (R73). -/
theorem divPow2_le (a v : Nat) : divPow2 a v ≤ a := by
  rw [divPow2_eq_div]; exact Nat.div_le_self _ _

/-- A shift by the width or more gives 0 (R74). -/
theorem divPow2_eq_zero {a v width : Nat} (fits : a < 2 ^ width) (h : width ≤ v) : divPow2 a v = 0 := by
  rw [divPow2_eq_div]
  exact Nat.div_eq_of_lt (lt_of_lt_of_le fits (Nat.pow_le_pow_right (by decide) h))

@[simp] theorem lowThreeBits_toNat (v : Nat) : (lowThreeBits v).toNat = v % 8 := by simp [lowThreeBits]

theorem mod8_lt (v : Nat) : mod8 v < 8 := Nat.mod_lt _ (by decide)

theorem literalValue_lt (x : Byte) : literalValue x < 256 := x.isLt

end Sys2Proof.Machine
end

