-- ==== Sys2Proof/Laws/PerInstr.lean ====
section
/-! SUPPORT. Statements made for each instruction: the family `TwoBytes` says that an instruction is exactly two bytes,
an opcode byte of 0 to 7 and an operand byte (spec/30_encoding.md R45, R54). -/

namespace Sys2Proof.Laws

/-- An instruction is two bytes, and the first is one of the eight assigned opcode bytes. -/
def TwoBytes.Statement (i : Instr) : Prop := ∃ x y, encode i = [x, y] ∧ x.toNat < 8

/-- The opcode byte of every instruction is 0 to 7. -/
theorem opcode_assigned (i : Instr) : i.opcode.toNat < 8 := by cases i <;> simp [Instr.opcode]

theorem TwoBytes.adv (o : Combo) : TwoBytes.Statement (.adv o) := ⟨_, _, rfl, opcode_assigned _⟩
theorem TwoBytes.bxl (literal : Byte) : TwoBytes.Statement (.bxl literal) := ⟨_, _, rfl, opcode_assigned _⟩
theorem TwoBytes.bst (o : Combo) : TwoBytes.Statement (.bst o) := ⟨_, _, rfl, opcode_assigned _⟩
theorem TwoBytes.jnz (target : Byte) : TwoBytes.Statement (.jnz target) := ⟨_, _, rfl, opcode_assigned _⟩
theorem TwoBytes.bxc (discarded : Byte) : TwoBytes.Statement (.bxc discarded) := ⟨_, _, rfl, opcode_assigned _⟩
theorem TwoBytes.out (o : Combo) : TwoBytes.Statement (.out o) := ⟨_, _, rfl, opcode_assigned _⟩
theorem TwoBytes.bdv (o : Combo) : TwoBytes.Statement (.bdv o) := ⟨_, _, rfl, opcode_assigned _⟩
theorem TwoBytes.cdv (o : Combo) : TwoBytes.Statement (.cdv o) := ⟨_, _, rfl, opcode_assigned _⟩

end Sys2Proof.Laws
end

