-- ==== Sys2Proof/Laws/Step.lean ====
section
/-! SUPPORT. What each meaning and the step can do, said once: later proofs cite these and unfold neither. -/

namespace Sys2Proof.Machine

/-- Everything the division family can do. -/
theorem divideInto_cases {dest : Reg} {o : Combo} {s t : State} (h : divideInto dest o s = .next t) :
    (∃ v, comboValue o s = some v ∧ t = advance (writeReg dest (divPow2 s.a v) s)) ∨
      (comboValue o s = none ∧ t = raiseFault .reservedCombo s) :=
  withCombo_cases h

/-- Every meaning answers a next state. -/
theorem exec_answers_next (i : Instr) (s : State) : ∃ t, exec i s = .next t := by
  have combo : ∀ (o : Combo) (effect : Nat → State), ∃ t, withCombo o s effect = .next t := by
    intro o effect
    unfold withCombo
    split <;> exact ⟨_, rfl⟩
  cases i with
  | adv o => exact combo o _
  | bxl literal => exact ⟨_, rfl⟩
  | bst o => exact combo o _
  | jnz target => exact ⟨_, rfl⟩
  | bxc discarded => exact ⟨_, rfl⟩
  | out o => exact combo o _
  | bdv o => exact combo o _
  | cdv o => exact combo o _

/-- The effect an instruction commits (line 8 of R52): at most one register, at most one element of the Output Sequence,
and the new IP. -/
inductive Commits (s : State) : State → Prop where
  | register (r : Reg) (v : Nat) : Commits s (advance (writeReg r v s))
  | output (v : OutVal) : Commits s (advance (outAppend v s))
  | fallThrough : Commits s (advance s)
  | jump (target : Byte) (taken : s.a ≠ 0) : Commits s (jumpTo (literalValue target) s)

/-- Everything a meaning can do: commit one instruction's effect, or raise ReservedCombo. -/
theorem exec_cases {i : Instr} {s t : State} (h : exec i s = .next t) :
    Commits s t ∨ t = raiseFault .reservedCombo s := by
  have combo : ∀ {o : Combo} {effect : Nat → State}, withCombo o s effect = .next t →
      (∀ v, Commits s (effect v)) → Commits s t ∨ t = raiseFault .reservedCombo s := by
    intro o effect h all
    rcases withCombo_cases h with ⟨v, -, rfl⟩ | ⟨-, rfl⟩
    · exact .inl (all v)
    · exact .inr rfl
  cases i with
  | adv o => exact combo h fun v => .register .a _
  | bxl literal => cases h; exact .inl (.register .b _)
  | bst o => exact combo h fun v => .register .b _
  | jnz target =>
    cases h
    by_cases ha : s.a = 0
    · simpa [jumpTaken, ha] using Or.inl (Commits.fallThrough (s := s))
    · simpa [jumpTaken, ha] using Or.inl (Commits.jump (s := s) target ha)
  | bxc discarded => cases h; exact .inl (.register .b _)
  | out o => exact combo h fun v => .output _
  | bdv o => exact combo h fun v => .register .b _
  | cdv o => exact combo h fun v => .register .c _

theorem step_of_running {s : State} (h : s.status = .running) : step s = runCycle s := by simp [step, h]

theorem runCycle_past {s : State} (h : s.romLen ≤ s.ip) : runCycle s = .next (halt s) := by
  simp [runCycle, fetchBytes_past h]

theorem runCycle_last {s : State} (h : s.ip + 1 = s.romLen) : runCycle s = .next (raiseFault .missingOperand s) := by
  simp [runCycle, fetchBytes_last h]

theorem runCycle_illegal {s : State} (h : s.ip + 1 < s.romLen) (hx : 8 ≤ (s.rom.read s.ip).toNat) :
    runCycle s = .next (raiseFault .illegalOpcode s) := by
  simp [runCycle, fetchBytes_pair h, decode, decodePair_illegal _ hx]

theorem runCycle_decoded {s : State} (h : s.ip + 1 < s.romLen) {i : Instr}
    (hi : decodePair (s.rom.read s.ip) (s.rom.read (s.ip + 1)) = .ok i) : runCycle s = exec i s := by
  simp [runCycle, fetchBytes_pair h, decode, hi]

/-- Everything a step that gives a next state can do (R52, R53): the block was Running, and the step is the halt, the
MissingOperand or IllegalOpcode fault, or the meaning of the instruction that the two bytes at IP decode to. -/
theorem step_cases {s t : State} (h : step s = .next t) :
    s.status = .running ∧
      ((s.romLen ≤ s.ip ∧ t = halt s) ∨
       (s.ip + 1 = s.romLen ∧ t = raiseFault .missingOperand s) ∨
       (s.ip + 1 < s.romLen ∧ 8 ≤ (s.rom.read s.ip).toNat ∧ t = raiseFault .illegalOpcode s) ∨
       (s.ip + 1 < s.romLen ∧ ∃ i, decodePair (s.rom.read s.ip) (s.rom.read (s.ip + 1)) = .ok i ∧
          exec i s = .next t)) := by
  have running : s.status = .running := by
    unfold step at h
    split at h
    · assumption
    · cases h
    · cases h
  refine ⟨running, ?_⟩
  rw [step_of_running running] at h
  rcases Nat.lt_trichotomy (s.ip + 1) s.romLen with hlt | heq | hgt
  · by_cases hx : (s.rom.read s.ip).toNat < 8
    · obtain ⟨i, hi, -⟩ := decodePair_legal (s.rom.read (s.ip + 1)) hx
      rw [runCycle_decoded hlt hi] at h
      exact .inr (.inr (.inr ⟨hlt, i, hi, h⟩))
    · rw [runCycle_illegal hlt (by omega)] at h
      cases h
      exact .inr (.inr (.inl ⟨hlt, by omega, rfl⟩))
  · rw [runCycle_last heq] at h
    cases h
    exact .inr (.inl ⟨heq, rfl⟩)
  · rw [runCycle_past (by omega)] at h
    cases h
    exact .inl ⟨by omega, rfl⟩

end Sys2Proof.Machine
end

