-- ==== Sys2Proof/Tests/Slice0.lean ====
section
/-! SUPPORT. The model's own tests and the witnesses of its statements. Every expected value is from
spec/95_test_vectors.md (the vector's name stands beside it) or written out from the encoding table of
spec/30_encoding.md R54. A `witness_` theorem shows a concrete state and operands that meet all the hypotheses of the
statement it is named after, at the boundary of each clause. -/

namespace Sys2Proof.Tests

open Machine

/-- A Running block with this ROM and these registers, IP where it is asked. -/
def blockAt (rom : List Byte) (a b c ip : Nat) : State :=
  { loadedState { rom := rom, a0 := a, b0 := b, c0 := c } with ip := ip }

/-- The step of `s` answers the next state `t`. -/
def stepsTo (s t : State) : Bool :=
  match step s with
  | .next u => u = t
  | _ => false

/-! ### The check of well-formedness refuses an ill-formed term -/

theorem test_reserved_below_seven_is_ill_formed :
    (Instr.adv (.reserved 6)).wf = false ∧ (Instr.bst (.reserved 0)).wf = false ∧
    (Instr.out (.reserved 5)).wf = false ∧ (Instr.bdv (.reserved 4)).wf = false ∧
    (Instr.cdv (.reserved 6)).wf = false ∧ (Instr.cdv (.reserved 7)).wf = true := by decide

theorem test_odd_length_is_ill_formed : ¬ RomWellFormed [0, 1, 5] := by decide
theorem test_byte_above_seven_is_ill_formed : ¬ RomWellFormed [3, 8] := by decide
theorem test_combo_seven_is_ill_formed : ¬ RomWellFormed [0, 1, 5, 4, 2, 7, 5, 5] := by decide
theorem test_odd_jump_is_refused : ¬ RomEvenJumps [3, 1] := by decide
/-- P3 is well formed, and P1 meets (d) too. -/
theorem test_program_is_well_formed : RomWellFormed [2, 4, 1, 3, 7, 5, 4, 1, 0, 3, 5, 5, 3, 0] := by decide
theorem test_even_jumps : RomEvenJumps [0, 1, 5, 4, 3, 0] := by decide

/-! ### Decoding, word by word from R54 and R49: opcode byte, then operand byte -/

theorem test_decode_adv : decode [0b00000000, 0b00000011] = .ok (.adv (.imm 3), []) := rfl
theorem test_decode_bxl : decode [0b00000001, 0b00000111] = .ok (.bxl 7, []) := rfl
theorem test_decode_bst : decode [0b00000010, 0b00000110] = .ok (.bst (.reg .c), []) := rfl
theorem test_decode_jnz : decode [0b00000011, 0b00001000] = .ok (.jnz 8, []) := rfl
theorem test_decode_bxc : decode [0b00000100, 0b11111111] = .ok (.bxc 255, []) := rfl
theorem test_decode_out : decode [0b00000101, 0b00000100] = .ok (.out (.reg .a), []) := rfl
theorem test_decode_bdv : decode [0b00000110, 0b00000101] = .ok (.bdv (.reg .b), []) := rfl
theorem test_decode_cdv : decode [0b00000111, 0b00000000] = .ok (.cdv (.imm 0), []) := rfl
theorem test_decode_reserved :
    decode [0, 7] = .ok (.adv (.reserved 7), []) ∧ decode [5, 9] = .ok (.out (.reserved 9), []) := ⟨rfl, rfl⟩
theorem test_decode_rejects :
    decode [] = .error .noOpcode ∧ decode [9] = .error .noOperand ∧
    decode [8, 7] = .error (.illegalOpcode 8) ∧ decode [255, 0] = .error (.illegalOpcode 255) := ⟨rfl, rfl, rfl, rfl⟩
theorem test_table_word : decodeTableWord 16 0x0705 = some (.cdv (.reg .b)) ∧ decodeTableWord 16 0x0800 = none := ⟨rfl, rfl⟩

/-! ### One step of each instruction -/

/-- S2. -/
theorem test_adv : stepsTo (blockAt [0, 3] 16 0 0 0) (blockAt [0, 3] 2 0 0 2) = true := by decide
/-- V14 at XLEN = 64: the exponent MAX gives 0. -/
theorem test_adv_huge_exponent :
    stepsTo (blockAt [0, 6] 18446744073709551615 0 18446744073709551615 0)
      (blockAt [0, 6] 0 0 18446744073709551615 2) = true := by decide
/-- V18: the old B is the exponent. -/
theorem test_bdv : stepsTo (blockAt [6, 5] 100 2 0 0) (blockAt [6, 5] 100 25 0 2) = true := by decide
/-- V22: the old C is the exponent. -/
theorem test_cdv : stepsTo (blockAt [7, 6] 100 0 2 0) (blockAt [7, 6] 100 0 25 2) = true := by decide
/-- V30. -/
theorem test_bxl : stepsTo (blockAt [1, 7] 0 29 0 0) (blockAt [1, 7] 0 26 0 2) = true := by decide
/-- V34: a literal above 7 is used verbatim. -/
theorem test_bxl_255 : stepsTo (blockAt [1, 255] 0 0 0 0) (blockAt [1, 255] 0 255 0 2) = true := by decide
/-- V40. -/
theorem test_bst : stepsTo (blockAt [2, 5] 0 13 0 0) (blockAt [2, 5] 0 5 0 2) = true := by decide
/-- V44: operand 7 is ignored. -/
theorem test_bxc : stepsTo (blockAt [4, 7] 0 2024 43690 0) (blockAt [4, 7] 0 44354 43690 2) = true := by decide
/-- S3, both rows. -/
theorem test_jnz :
    stepsTo (blockAt [3, 8] 1 0 0 0) (blockAt [3, 8] 1 0 0 8) = true ∧
    stepsTo (blockAt [3, 8] 0 0 0 0) (blockAt [3, 8] 0 0 0 2) = true := by decide
/-- P4 run (a), step 2: an odd IP reads the bytes with their roles swapped. -/
theorem test_odd_ip : stepsTo (blockAt [3, 1, 5, 4, 0] 1 0 0 1) (blockAt [3, 1, 5, 4, 0] 1 5 0 3) = true := by decide
/-- S4. -/
theorem test_out :
    stepsTo (blockAt [5, 4] 10 0 0 0) { blockAt [5, 4] 10 0 0 2 with out := [2] } = true := by decide
/-- S8. -/
theorem test_halt :
    stepsTo (blockAt [] 0 0 0 0) { blockAt [] 0 0 0 0 with status := .halted } = true ∧
    stepsTo (blockAt [3, 200] 5 0 0 200) { blockAt [3, 200] 5 0 0 200 with status := .halted } = true := by decide
/-- F1, F3, F7, F8, F10, F13, F18. -/
theorem test_faults :
    stepsTo (blockAt [0] 8 0 0 0) { blockAt [0] 8 0 0 0 with status := .faulted .missingOperand } = true ∧
    stepsTo (blockAt [9] 0 0 0 0) { blockAt [9] 0 0 0 0 with status := .faulted .missingOperand } = true ∧
    stepsTo (blockAt [8, 7] 1 2 3 0) { blockAt [8, 7] 1 2 3 0 with status := .faulted .illegalOpcode } = true ∧
    stepsTo (blockAt [0, 7] 16 0 0 0) { blockAt [0, 7] 16 0 0 0 with status := .faulted .reservedCombo } = true ∧
    stepsTo (blockAt [5, 7] 0 0 0 0) { blockAt [5, 7] 0 0 0 0 with status := .faulted .reservedCombo } = true ∧
    stepsTo (blockAt [0, 8] 16 0 0 0) { blockAt [0, 8] 16 0 0 0 with status := .faulted .reservedCombo } = true ∧
    stepsTo (blockAt [5, 0, 3, 5, 7, 1] 3 0 0 5)
      { blockAt [5, 0, 3, 5, 7, 1] 3 0 0 5 with status := .faulted .missingOperand } = true := by decide
/-- "After any row of this table and of S8 the block takes no further step". -/
theorem test_stopped_has_no_step :
    step { blockAt [] 0 0 0 0 with status := .halted } = .fault .haltedHasNoStep ∧
    step { blockAt [0] 8 0 0 0 with status := .faulted .missingOperand } =
      .fault (.faultedHasNoStep .missingOperand) := ⟨rfl, rfl⟩

/-! ### The interface -/

theorem test_memory_keeps_its_form :
    Memory.write [(0, 3), (2, 5)] 1 4 = [(0, 3), (1, 4), (2, 5)] ∧
    Memory.write [(0, 3), (2, 5)] 2 0 = [(0, 3)] ∧
    Memory.wf [(0, 3), (2, 5)] = true ∧ Memory.wf [(2, 3), (1, 5)] = false ∧ Memory.wf [(0, 0)] = false := by decide
/-- The very next step after placing a word runs it, from reset. -/
theorem test_placed_word_runs :
    stepsTo (State.reset.withFetchWord 16 0x0107)
      { State.reset with b := 7, ip := 2, rom := [(0, 1), (1, 7)], romLen := 2 } = true := by decide
theorem test_load_refuses :
    load ⟨8, 8⟩ { rom := [], a0 := 256, b0 := 0, c0 := 0 } State.reset = .refused .loadDoesNotFit := rfl
/-- The datapath on S4, at XLEN = 17 and IPW = 8. -/
theorem test_datapath_out :
    (bitStep (bitsOf ⟨17, 8⟩ (blockAt [5, 4] 10 0 0 0))) =
      some (bitsOf ⟨17, 8⟩ { blockAt [5, 4] 10 0 0 2 with out := [2] }) := by decide
/-- The host's ports after F8, with XLEN = 8 and IPW = 8. -/
theorem test_ports_of_a_fault :
    ports ⟨8, 8⟩ { blockAt [0, 7] 16 0 0 0 with status := .faulted .reservedCombo } =
      { status := 2, cause := 3, out := [], a := 16, b := 0, c := 0, ip := 0 } := by decide

/-! ### Witnesses of the statements' hypotheses -/

theorem witness_OpcodeByteSelectsInstruction : 8 ≤ (8 : Byte).toNat ∧ 8 ≤ (255 : Byte).toNat := by decide
theorem witness_DecodeOfEncode :
    (Instr.cdv (.reserved 7)).wf = true ∧ (Instr.adv (.reserved 255)).wf = true ∧ (Instr.out (.imm 3)).wf = true := by
  decide
theorem witness_EncodeOfDecode : decode [6, 6, 9] = .ok (.bdv (.reg .c), [9]) := rfl
theorem witness_OperandKindIsStatic :
    decode [0, 7] = .ok (.adv (.reserved 7), []) ∧ decode [3, 8] = .ok (.jnz 8, []) ∧
    decode [4, 0] = .ok (.bxc 0, []) := ⟨rfl, rfl, rfl⟩
theorem witness_ComboOperandTable :
    7 ≤ (7 : Byte).toNat ∧ 7 ≤ (255 : Byte).toNat ∧ ¬ 7 ≤ (6 : Byte).toNat := by decide

/-- A block that is about to run BXL 7, with nothing after it. -/
def beforeBxl : State := blockAt [1, 7] 3 5 6 0

theorem witness_StepRunsDecodedInstruction :
    beforeBxl.status = .running ∧ beforeBxl.ip + 1 < beforeBxl.romLen ∧
    decode [beforeBxl.rom.read beforeBxl.ip, beforeBxl.rom.read (beforeBxl.ip + 1)] = .ok (.bxl 7, []) :=
  ⟨rfl, by decide, rfl⟩
theorem witness_HaltStepSetsStatusOnly :
    (blockAt [1, 7] 0 0 0 2).status = .running ∧ (blockAt [1, 7] 0 0 0 2).romLen ≤ (blockAt [1, 7] 0 0 0 2).ip := by
  decide
theorem witness_MissingOperandIsRaised :
    (blockAt [1, 7, 4] 0 0 0 2).status = .running ∧ (blockAt [1, 7, 4] 0 0 0 2).ip < (blockAt [1, 7, 4] 0 0 0 2).romLen ∧
    (blockAt [1, 7, 4] 0 0 0 2).romLen ≤ (blockAt [1, 7, 4] 0 0 0 2).ip + 1 := by decide
theorem witness_IllegalOpcodeIsRaised :
    (blockAt [8, 7] 0 0 0 0).status = .running ∧ (blockAt [8, 7] 0 0 0 0).ip + 1 < (blockAt [8, 7] 0 0 0 0).romLen ∧
    8 ≤ ((blockAt [8, 7] 0 0 0 0).rom.read 0).toNat := by decide
/-- Both sides of R108's condition at their boundary: operand 7 faults under ADV, 6 does not, 7 under BXL does not. -/
theorem witness_ReservedComboIsRaisedExactly :
    (blockAt [0, 7] 1 0 0 0).status = .running ∧
    stepsTo (blockAt [0, 7] 1 0 0 0) { blockAt [0, 7] 1 0 0 0 with status := .faulted .reservedCombo } = true ∧
    stepsTo (blockAt [0, 6] 1 0 0 0) (blockAt [0, 6] 1 0 0 2) = true ∧
    stepsTo (blockAt [1, 7] 0 0 0 0) (blockAt [1, 7] 0 7 0 2) = true := by decide
/-- Each clause of the order of the stopping conditions, at its boundary. -/
theorem witness_StoppingConditionsInOrder :
    stepsTo (blockAt [7, 7] 1 0 0 2) { blockAt [7, 7] 1 0 0 2 with status := .halted } = true ∧
    stepsTo (blockAt [7, 7] 1 0 0 1) { blockAt [7, 7] 1 0 0 1 with status := .faulted .missingOperand } = true ∧
    stepsTo (blockAt [8, 7] 1 0 0 0) { blockAt [8, 7] 1 0 0 0 with status := .faulted .illegalOpcode } = true ∧
    stepsTo (blockAt [7, 7] 1 0 0 0) { blockAt [7, 7] 1 0 0 0 with status := .faulted .reservedCombo } = true ∧
    stepsTo (blockAt [7, 6] 1 0 0 0) (blockAt [7, 6] 1 0 1 2) = true := by decide
theorem witness_FaultChangesStatusOnly :
    step (blockAt [5, 7] 1 0 0 0) = .next { blockAt [5, 7] 1 0 0 0 with status := .faulted .reservedCombo } := rfl
theorem witness_RunningAlwaysStepsAndStoppedNever :
    (blockAt [8, 7] 1 0 0 0).status = .running ∧ { blockAt [8, 7] 1 0 0 0 with status := .halted }.status ≠ .running := by
  decide
/-- The hypothesis of the combo instructions' completion: an immediate, and each register. -/
theorem witness_AdvCompletes_and_the_other_combo_instructions :
    comboValue (.imm 3) beforeBxl = some 3 ∧ comboValue (.reg .a) beforeBxl = some 3 ∧
    comboValue (.reg .b) beforeBxl = some 5 ∧ comboValue (.reg .c) beforeBxl = some 6 := by decide
theorem witness_JnzCompletes : (blockAt [3, 8] 1 0 0 0).a ≠ 0 ∧ (blockAt [3, 8] 0 0 0 0).a = 0 := by decide
/-- The hypotheses of the eight statements by bytes: the opcode byte at IP with an operand byte that has a value (6), with
one that has none (7), and with none at all. -/
theorem witness_AdvByBytes_and_the_other_seven (opcode : Byte) :
    (blockAt [opcode, 6] 1 2 3 0).status = .running ∧ (blockAt [opcode, 6] 1 2 3 0).ip + 1 < 2 ∧
    (blockAt [opcode, 6] 1 2 3 0).romLen = 2 ∧ (blockAt [opcode, 6] 1 2 3 0).rom.read 0 = opcode ∧
    (blockAt [opcode, 6] 1 2 3 0).rom.read 1 = 6 ∧ (blockAt [opcode, 7] 1 2 3 0).rom.read 1 = 7 ∧
    (blockAt [opcode] 1 2 3 0).ip + 1 = (blockAt [opcode] 1 2 3 0).romLen ∧
    (blockAt [opcode] 1 2 3 0).rom.read 0 = opcode := by
  revert opcode; decide
/-- The largest value at XLEN = 8, just below and at the width. -/
theorem witness_QuotientIsTheShift :
    (⟨8, 8⟩ : Params).FitsReg 255 ∧ 7 < 8 ∧ divPow2 255 7 = 1 ∧ divPow2 255 8 = 0 := by decide
theorem witness_BxcIgnoresOperandByte :
    (blockAt [4, 7] 0 1 2 0).status = .running ∧ (blockAt [4, 7] 0 1 2 0).rom.read 0 = 4 ∧
    (blockAt [4, 7] 0 1 2 0).ip + 1 < (blockAt [4, 7] 0 1 2 0).romLen ∧
    (blockAt [4] 0 1 2 0).rom.read 0 = 4 ∧ (blockAt [4] 0 1 2 0).ip + 1 = (blockAt [4] 0 1 2 0).romLen := by decide
/-- Serves the frames of the instructions too: BXL writes B, so A and C keep their values. -/
theorem witness_RegisterWritersAreFixed_and_InstructionsKeepTheRest :
    exec (.bxl 7) beforeBxl = .next { beforeBxl with b := 2, ip := 2 } := rfl
theorem witness_IpAdvancesByTwoOrJumps :
    stepsTo (blockAt [3, 8] 1 0 0 0) (blockAt [3, 8] 1 0 0 8) = true ∧
    stepsTo (blockAt [3, 8] 0 0 0 0) (blockAt [3, 8] 0 0 0 2) = true ∧
    stepsTo (blockAt [3] 1 0 0 0) { blockAt [3] 1 0 0 0 with status := .faulted .missingOperand } = true := by decide
theorem witness_OutStreamIsOut_and_NothingReadsOut :
    stepsTo (blockAt [5, 4] 10 0 0 0) { blockAt [5, 4] 10 0 0 2 with out := [2] } = true ∧
    presented (blockAt [5, 4] 10 0 0 0) = [2] ∧ presented (blockAt [5, 7] 10 0 0 0) = [] := by decide

/-- The program `OUT 1` and the three states of its run. -/
def outOne : LoadArgs := { rom := [5, 1], a0 := 0, b0 := 0, c0 := 0 }
def outOneRan : State := { loadedState outOne with ip := 2, out := [1] }
def outOneHalted : State := { outOneRan with status := .halted }

theorem outOne_reaches_ran : Reaches (loadedState outOne) outOneRan := .tail (.refl _) rfl
theorem outOne_reaches_halted : Reaches (loadedState outOne) outOneHalted := .tail outOne_reaches_ran rfl

theorem witness_FetchReturnsTheLoadedBytes_and_OutOnlyGrows :
    load ⟨8, 8⟩ outOne State.reset = .next (loadedState outOne) ∧ Reaches (loadedState outOne) outOneHalted ∧
    1 < outOneHalted.romLen :=
  ⟨rfl, outOne_reaches_halted, by decide⟩
/-- Two Running blocks that agree on the ROM and IP and on no register. -/
theorem witness_FaultsIgnoreRegisters :
    (blockAt [2, 7] 1 2 3 0).rom = (blockAt [2, 7] 9 9 9 0).rom ∧
    (blockAt [2, 7] 1 2 3 0).romLen = (blockAt [2, 7] 9 9 9 0).romLen ∧
    step (blockAt [2, 7] 1 2 3 0) = .next { blockAt [2, 7] 1 2 3 0 with status := .faulted .reservedCombo } ∧
    step (blockAt [2, 7] 9 9 9 0) = .next { blockAt [2, 7] 9 9 9 0 with status := .faulted .reservedCombo } :=
  ⟨rfl, rfl, rfl, rfl⟩
/-- The largest values that fit XLEN = 8, and the smallest that do not. -/
theorem witness_LoadSetsEveryElement_and_LoadTakesWhatFitsOnly :
    (LoadArgs.mk [5, 1] 255 255 255).Fits ⟨8, 8⟩ ∧ ¬ (LoadArgs.mk [5, 1] 255 255 256).Fits ⟨8, 8⟩ ∧
    255 ≤ 2 ^ (⟨8, 8⟩ : Params).xlen - 1 ∧ ¬ 256 ≤ 2 ^ (⟨8, 8⟩ : Params).xlen - 1 := by decide
theorem witness_PortsShowTheState :
    (⟨8, 8⟩ : Params).FitsReg 255 ∧ (⟨8, 8⟩ : Params).FitsIp 255 := by decide
theorem witness_PlacedWordRunsNext :
    State.reset.rom.wf = true ∧ decodeTableWord 16 0x0107 = some (.bxl 7) ∧ 2 ≠ State.reset.ip ∧
    2 ≠ State.reset.ip + 1 := by decide
theorem witness_LoadMeetsInvariant :
    load ⟨8, 8⟩ outOne State.reset = .next (loadedState outOne) := rfl

/-- The smallest legal widths. -/
def narrow : Params := ⟨8, 8⟩

/-- A Running state that meets the invariant with every register at its largest value and IP at a jump's largest target. -/
theorem witness_invariant_at_its_bounds : Inv narrow (blockAt [3, 255] 255 255 255 255) := by
  constructor <;> decide

theorem witness_StepKeepsInvariant_and_DatapathTakesTheSameStep :
    narrow.Legal ∧ Inv narrow (blockAt [3, 255] 255 255 255 0) ∧
    step (blockAt [3, 255] 255 255 255 0) = .next (blockAt [3, 255] 255 255 255 255) :=
  ⟨by decide, by constructor <;> decide, rfl⟩
theorem witness_BitsDetermineTheState :
    narrow.Legal ∧ Inv narrow (blockAt [3, 255] 255 255 255 255) ∧
    bitsOf narrow (blockAt [3, 255] 255 255 255 255) = bitsOf narrow (blockAt [3, 255] 255 255 255 255) :=
  ⟨by decide, witness_invariant_at_its_bounds, rfl⟩
/-- A LOAD, a step, and a second LOAD that abandons the run. -/
theorem witness_NothingEverWraps :
    narrow.Legal ∧
    afterEvents narrow [.load outOne, .step, .load ⟨[3, 255], 255, 255, 255⟩, .step] State.reset =
      .next (blockAt [3, 255] 255 255 255 255) :=
  ⟨by decide, rfl⟩
theorem witness_WellFormedProgramsNeverFault :
    RomWellFormed outOne.rom ∧ RomEvenJumps outOne.rom ∧
    load narrow outOne State.reset = .next (loadedState outOne) ∧ Reaches (loadedState outOne) outOneRan :=
  ⟨by decide, by decide, rfl, outOne_reaches_ran⟩
/-- A taken JNZ in a well-formed program, the step whose target must be even, and a LOAD of that program. -/
theorem witness_StepKeepsWellFormedRun :
    WellFormedRun (blockAt [5, 4, 3, 0] 1 0 0 2) ∧
    step (blockAt [5, 4, 3, 0] 1 0 0 2) = .next (blockAt [5, 4, 3, 0] 1 0 0 0) ∧
    RomWellFormed [5, 4, 3, 0] ∧ RomEvenJumps [5, 4, 3, 0] ∧
    load narrow { rom := [5, 4, 3, 0], a0 := 1, b0 := 0, c0 := 0 } State.reset = .next (blockAt [5, 4, 3, 0] 1 0 0 0) :=
  ⟨⟨by decide, by decide, by decide, by decide, by decide, nofun⟩, rfl, by decide, by decide, rfl⟩
/-- R50 at the operand bytes on each side of its boundaries. -/
theorem witness_OperandResolverSignals :
    resolverValue (kindCode .combo) 3 (10#8) (11#8) (12#8) = 3#8 ∧
    resolverValue (kindCode .combo) 4 (10#8) (11#8) (12#8) = 10#8 ∧
    resolverValue (kindCode .combo) 5 (10#8) (11#8) (12#8) = 11#8 ∧
    resolverValue (kindCode .combo) 6 (10#8) (11#8) (12#8) = 12#8 ∧
    resolverInvalid (kindCode .combo) 6 = false ∧ resolverInvalid (kindCode .combo) 7 = true ∧
    resolverInvalid (kindCode .literal) 7 = false ∧ resolverInvalid (kindCode .ignored) 255 = false := by decide
theorem witness_ResultOfARun :
    Reaches (loadedState outOne) outOneHalted ∧ outOneHalted.status = .halted ∧
    HasResult (loadedState outOne) { out := [1], a := 0, b := 0, c := 0, ip := 2 } :=
  ⟨outOne_reaches_halted, rfl, outOneHalted, outOne_reaches_halted, rfl, rfl⟩
/-- F1's run reaches a Faulted state. -/
theorem witness_ResultOfARun_of_a_fault :
    Reaches (blockAt [0] 8 0 0 0) { blockAt [0] 8 0 0 0 with status := .faulted .missingOperand } ∧
    { blockAt [0] 8 0 0 0 with status := .faulted .missingOperand }.status = .faulted .missingOperand :=
  ⟨.tail (.refl _) rfl, rfl⟩
/-- V65: a run that never leaves Running, because each step gives the same state. -/
theorem witness_ResultOfARun_of_an_endless_run :
    ∀ t, Reaches (blockAt [3, 0] 1 0 0 0) t → t.status = .running := by
  have same : ∀ {s t}, Reaches s t → s = blockAt [3, 0] 1 0 0 0 → t = blockAt [3, 0] 1 0 0 0 := by
    intro s t run
    induction run with
    | refl => exact id
    | tail before last earlier =>
      intro start
      rw [earlier start] at last
      cases last
      rfl
  intro t run
  rw [same run rfl]
  rfl
/-- V65. -/
theorem witness_JumpToItselfRunsForever :
    (blockAt [3, 0] 1 0 0 0).status = .running ∧ (blockAt [3, 0] 1 0 0 0).ip + 1 < (blockAt [3, 0] 1 0 0 0).romLen ∧
    (blockAt [3, 0] 1 0 0 0).rom.read 0 = 3 ∧ ((blockAt [3, 0] 1 0 0 0).rom.read 1).toNat = (blockAt [3, 0] 1 0 0 0).ip ∧
    (blockAt [3, 0] 1 0 0 0).a ≠ 0 ∧ Reaches (blockAt [3, 0] 1 0 0 0) (blockAt [3, 0] 1 0 0 0) :=
  ⟨rfl, by decide, rfl, rfl, by decide, .refl _⟩
/-- S6, begun one candidate before the answer. -/
theorem witness_SearchFindsTheLeastCandidate :
    searchFrom ⟨17, 8⟩ [0, 3, 5, 4, 3, 0] 0 0 19 2 117439 State.reset = .found 117440 := by decide

end Sys2Proof.Tests
end

section
/-! SUPPORT. The state elements that a step and a LOAD set (spec/10_state.md R15, R26): where each step leaves IP, and every
element after LOAD. -/

namespace Sys2Proof

/-- A decoded instruction is well formed and is the one whose opcode and operand bytes were read. -/
theorem decodePair_ok {x y : Byte} {i : Instr} (h : decodePair x y = .ok i) :
    i.opcode = x ∧ i.operand = y ∧ i.wf = true := by
  by_cases legal : x.toNat < 8
  · obtain ⟨j, decoded, fields⟩ := decodePair_legal y legal
    rw [decoded] at h
    cases h
    exact fields
  · rw [decodePair_illegal y (by omega)] at h
    cases h

end Sys2Proof

namespace Sys2Proof.Machine

/-- A combo instruction whose effect keeps STATUS and leaves IP + 2 does just that, or raises ReservedCombo. -/
theorem withCombo_advances {o : Combo} {s t : State} {effect : Nat → State} (h : withCombo o s effect = .next t)
    (advances : ∀ v, (effect v).status = s.status ∧ (effect v).ip = s.ip + 2) :
    t = raiseFault .reservedCombo s ∨ (t.status = s.status ∧ t.ip = s.ip + 2) := by
  rcases withCombo_cases h with ⟨v, -, rfl⟩ | ⟨-, rfl⟩
  · exact .inr (advances v)
  · exact .inl rfl

/-- JNZ keeps STATUS and leaves its literal in IP when A is not 0, and IP + 2 when it is (R92). -/
theorem execJnz_ip {target : Byte} {s t : State} (h : execJnz target s = .next t) :
    t.status = s.status ∧ t.ip = if s.a ≠ 0 then target.toNat else s.ip + 2 := by
  cases h
  by_cases zero : s.a = 0 <;> simp [jumpTaken, zero, literalValue]

/-- Where a meaning leaves IP, by the bytes of its instruction: at the literal of a JNZ (opcode byte 3) whose condition
holds and at IP + 2 otherwise, with STATUS kept, unless it raises ReservedCombo. -/
theorem exec_ip {i : Instr} {s t : State} (h : exec i s = .next t) :
    t = raiseFault .reservedCombo s ∨
      (t.status = s.status ∧ t.ip = if i.opcode = 3 ∧ s.a ≠ 0 then i.operand.toNat else s.ip + 2) := by
  cases i with
  | adv o => exact withCombo_advances h fun v => by simp
  | bxl literal => cases h; right; simp [Instr.opcode]
  | bst o => exact withCombo_advances h fun v => by simp
  | jnz target => right; simpa [Instr.opcode, Instr.operand] using execJnz_ip h
  | bxc discarded => cases h; right; simp [Instr.opcode]
  | out o => exact withCombo_advances h fun v => by simp
  | bdv o => exact withCombo_advances h fun v => by simp
  | cdv o => exact withCombo_advances h fun v => by simp

/-- LOAD of arguments that fit the ports answers the loaded state, from every state (R131). -/
theorem load_of_fits {p : Params} {args : LoadArgs} (fits : args.Fits p) (s : State) :
    load p args s = .next (loadedState args) := if_pos fits

/-- Below ROM_LEN the loaded ROM holds the program's bytes (R26). -/
theorem getElem?_eq_read_loadedState {args : LoadArgs} {n : Nat} (inside : n < args.rom.length) :
    args.rom[n]? = some ((loadedState args).rom.read n) := by
  simp [loadedState, inside]

end Sys2Proof.Machine

namespace Sys2Proof.Proofs

open Machine Claims

/-- Settles O38: a halt and a fault keep IP, and an executed instruction moves it as `exec_ip` says of the instruction
whose two bytes stand at IP. -/
theorem ipAdvancesByTwoOrJumps : Obligations.IpAdvancesByTwoOrJumps := by
  intro s t h
  obtain ⟨running, ⟨-, rfl⟩ | ⟨-, rfl⟩ | ⟨-, -, rfl⟩ | ⟨-, i, decoded, executed⟩⟩ := step_cases h
  · simp
  · simp
  · simp
  · obtain ⟨opcode, operand, -⟩ := decodePair_ok decoded
    rcases exec_ip executed with rfl | ⟨status, ip⟩
    · simp
    · refine ⟨fun stopped => absurd (status.trans running) stopped, fun _ => ?_⟩
      rw [opcode, operand] at ip
      exact (apply_ite (t.ip = ·) _ _ _).mp ip

/-- Settles O43: the one state is `loadedState`. -/
theorem loadSetsEveryElement : Obligations.LoadSetsEveryElement := by
  intro p args fits
  exact ⟨loadedState args, load_of_fits fits, rfl, rfl, rfl, rfl, rfl, rfl, rfl, rfl,
    fun _ inside => getElem?_eq_read_loadedState inside⟩

end Sys2Proof.Proofs
end

section
/-! SUPPORT. Encoding and operands (spec/30_encoding.md R47, R49, R53, R60): the operand kind by the opcode byte, the combo
value by the operand byte, that a Running block's step is total, and that BXC does not look at its operand byte. -/

namespace Sys2Proof

/-- Two bytes decode to an instruction, with nothing after it, exactly when they are its opcode byte and operand byte. -/
theorem decode_two_eq_ok_iff {x y : Byte} {i : Instr} : decode [x, y] = .ok (i, []) ↔ decodePair x y = .ok i := by
  rw [decode_pair]
  cases decodePair x y <;> simp [Except.map]

theorem Instr.kind_eq_combo_iff (i : Instr) : i.kind = .combo ↔ i.opcode.toNat ∈ [0, 2, 5, 6, 7] := by
  cases i <;> simp [Instr.kind, Instr.opcode]

theorem Instr.kind_eq_literal_iff (i : Instr) : i.kind = .literal ↔ i.opcode.toNat ∈ [1, 3] := by
  cases i <;> simp [Instr.kind, Instr.opcode]

theorem Instr.kind_eq_ignored_iff (i : Instr) : i.kind = .ignored ↔ i.opcode.toNat = 4 := by
  cases i <;> simp [Instr.kind, Instr.opcode]

end Sys2Proof

namespace Sys2Proof.Machine

open Claims

/-- The dispatch table gives each instruction's own kind, at the low three bits of its opcode byte (R51). -/
theorem controlOf_opcode_kind (i : Instr) : (controlOf (i.opcode.extractLsb' 0 3)).kind = i.kind := by
  cases i <;> rfl

/-- The value of the combo operand that a byte decodes to is the one R49 tabulates for the byte. -/
theorem comboValue_ofByte (opd : Byte) (s : State) : comboValue (Combo.ofByte opd) s = comboByte opd s := by
  by_cases reserved : 7 ≤ opd.toNat
  · rw [Combo.ofByte_of_reserved reserved, comboValue_reserved, comboByte, if_neg (by omega), if_neg (by omega),
      if_neg (by omega), if_neg (by omega)]
  · have small : ∀ x : Byte, ¬ 7 ≤ x.toNat → x = 0 ∨ x = 1 ∨ x = 2 ∨ x = 3 ∨ x = 4 ∨ x = 5 ∨ x = 6 := by decide
    rcases small opd reserved with rfl | rfl | rfl | rfl | rfl | rfl | rfl <;> rfl

/-- An instruction whose operand is a combo operand raises ReservedCombo on a reserved one (R56, R57). -/
theorem exec_reserved (x : Byte) (s : State) {i : Instr}
    (combo : i ∈ [Instr.adv (.reserved x), .bst (.reserved x), .out (.reserved x), .bdv (.reserved x),
      .cdv (.reserved x)]) :
    exec i s = .next (raiseFault .reservedCombo s) := by
  simp only [List.mem_cons, List.not_mem_nil, or_false] at combo
  rcases combo with rfl | rfl | rfl | rfl | rfl <;> rfl

theorem runCycle_answers_next (s : State) : ∃ t, runCycle s = .next t := by
  unfold runCycle
  split
  · exact ⟨_, rfl⟩
  · exact ⟨_, rfl⟩
  · exact ⟨_, rfl⟩
  · exact exec_answers_next _ s

/-- BXC's meaning does not look at the operand byte (R60). -/
theorem exec_bxc_eq (x y : Byte) (s : State) : exec (.bxc x) s = exec (.bxc y) s := rfl

end Sys2Proof.Machine

namespace Sys2Proof.Proofs

open Machine Claims

/-- Settles O7: `comboValue_ofByte` is the table, and a byte of 7 to 255 decodes to a reserved operand. -/
theorem comboOperandTable : Obligations.ComboOperandTable := by
  intro opd s
  refine ⟨comboValue_ofByte opd s, fun reserved i combo => ?_⟩
  rw [Combo.ofByte_of_reserved reserved] at combo
  exact exec_reserved opd s combo

/-- Settles O15: a cycle always answers, and `step_cases` says what; an executed instruction keeps STATUS unless it raises
ReservedCombo. -/
theorem runningAlwaysStepsAndStoppedNever : Obligations.RunningAlwaysStepsAndStoppedNever := by
  refine ⟨fun s running => ?_, fun s t stopped h => stopped (step_cases h).1⟩
  obtain ⟨t, answered⟩ := runCycle_answers_next s
  have h : step s = .next t := (step_of_running running).trans answered
  refine ⟨t, h, ?_⟩
  obtain ⟨-, ⟨-, rfl⟩ | ⟨-, rfl⟩ | ⟨-, -, rfl⟩ | ⟨-, i, decoded, executed⟩⟩ := step_cases h
  · exact .inl rfl
  · exact .inr (.inl ⟨.missingOperand, rfl⟩)
  · exact .inr (.inl ⟨.illegalOpcode, rfl⟩)
  · rcases exec_ip executed with rfl | ⟨status, -⟩
    · exact .inr (.inl ⟨.reservedCombo, rfl⟩)
    · exact .inr (.inr ⟨status.trans running, i, decode_two_eq_ok_iff.mpr decoded, executed⟩)

/-- Settles O6: the opcode byte that was read is the decoded instruction's own, and that decides the kind. -/
theorem operandKindIsStatic : Obligations.OperandKindIsStatic := by
  intro opc opd i decoded
  obtain ⟨rfl, -, -⟩ := decodePair_ok (decode_two_eq_ok_iff.mp decoded)
  exact ⟨(controlOf_opcode_kind i).symm, i.kind_eq_combo_iff, i.kind_eq_literal_iff, i.kind_eq_ignored_iff⟩

/-- Settles O34: opcode byte 4 decodes to BXC of the operand byte found, and any other operand byte means the same. -/
theorem bxcIgnoresOperandByte : Obligations.BxcIgnoresOperandByte := by
  refine ⟨exec_bxc_eq, fun s running opcode inside x => ?_, fun s running _ last => ?_⟩
  · have decoded : decodePair (opcodeAt s) (operandAt s) = .ok (.bxc (operandAt s)) := by rw [opcode]; rfl
    calc step s = runCycle s := step_of_running running
      _ = exec (.bxc (operandAt s)) s := runCycle_decoded inside decoded
      _ = exec (.bxc x) s := exec_bxc_eq _ x s
  · exact (step_of_running running).trans (runCycle_last last)

end Sys2Proof.Proofs
end

section
/-! SUPPORT. Division (spec/40_division.md R70 to R74): one step of a combo instruction from the bytes at IP, which the
three divisions instantiate with their opcode byte and destination (R76), and the quotient as the shift. -/

namespace Sys2Proof.Machine

open Claims

/-- A combo instruction by its bytes (R52): where `opcode` decodes to `instr` of the operand byte, and `instr` resolves its
operand and then does `effect`, the step at that opcode byte is `effect` or one of the two faults. -/
theorem comboInstruction_of_exec {opcode : Byte} {instr : Combo → Instr} {effect : Nat → State → State}
    (decoded : ∀ opd, decodePair opcode opd = .ok (instr (Combo.ofByte opd)))
    (meaning : ∀ o s, exec (instr o) s = withCombo o s (effect · s)) : ComboInstruction opcode effect := by
  intro s running _ atIp
  have executes (inside : s.ip + 1 < s.romLen) :
      step s = withCombo (Combo.ofByte (operandAt s)) s (effect · s) := by
    have here : decodePair (opcodeAt s) (operandAt s) = .ok (instr (Combo.ofByte (operandAt s))) := by
      rw [atIp]
      exact decoded _
    calc step s = runCycle s := step_of_running running
      _ = exec (instr (Combo.ofByte (operandAt s))) s := runCycle_decoded inside here
      _ = withCombo (Combo.ofByte (operandAt s)) s (effect · s) := meaning _ s
  refine ⟨fun last => ?missing, fun inside reserved => ?reserved, fun inside v hasValue => ?completes⟩
  case missing => exact (step_of_running running).trans (runCycle_last last)
  case reserved =>
    rw [executes inside, Combo.ofByte_of_reserved reserved]
    rfl
  case completes =>
    rw [← comboValue_ofByte] at hasValue
    rw [executes inside, withCombo_value hasValue]

/-- The division family resolves its operand and writes the quotient of A to its destination (R73, R76). -/
theorem divideInto_eq_withCombo (dest : Reg) (o : Combo) (s : State) :
    divideInto dest o s = withCombo o s fun v => advance (writeReg dest (s.a / 2 ^ v) s) := by
  simp only [divideInto, divPow2_eq_div]

end Sys2Proof.Machine

namespace Sys2Proof.Proofs

open Machine Claims

/-- Settles O24: opcode byte 0 decodes to ADV, the division into A. -/
theorem advByBytes : Obligations.AdvByBytes :=
  comboInstruction_of_exec (instr := .adv) (fun _ => rfl) (divideInto_eq_withCombo .a)

/-- Settles O25: opcode byte 6 decodes to BDV, the division into B. -/
theorem bdvByBytes : Obligations.BdvByBytes :=
  comboInstruction_of_exec (instr := .bdv) (fun _ => rfl) (divideInto_eq_withCombo .b)

/-- Settles O26: opcode byte 7 decodes to CDV, the division into C. -/
theorem cdvByBytes : Obligations.CdvByBytes :=
  comboInstruction_of_exec (instr := .cdv) (fun _ => rfl) (divideInto_eq_withCombo .c)

/-- Settles O32: the model computes the quotient by the shift for every exponent, and a numerator that fits the register
leaves nothing at the width and above. -/
theorem quotientIsTheShift : Obligations.QuotientIsTheShift := by
  intro p a v fits
  exact ⟨divPow2_eq_div a v, fun _ => rfl, divPow2_eq_zero fits, divPow2_le a v⟩

end Sys2Proof.Proofs
end

section
/-! SUPPORT. The bitwise family (spec/41_bitwise.md R80 to R82): one step of an instruction with a literal or ignored operand
byte from the bytes at IP, which BXL and BXC instantiate; BST is a combo instruction. -/

namespace Sys2Proof.Machine

open Claims

/-- An instruction without a combo operand by its bytes (R52): where `opcode` decodes to `instr` of the operand byte, and
`instr` does `effect` on every operand byte, the step at that opcode byte is `effect` or the MissingOperand fault. -/
theorem byteInstruction_of_exec {opcode : Byte} {instr : Byte → Instr} {effect : Nat → State → State}
    (decoded : ∀ opd, decodePair opcode opd = .ok (instr opd))
    (meaning : ∀ opd s, exec (instr opd) s = .next (effect opd.toNat s)) : ByteInstruction opcode effect := by
  intro s running _ atIp
  refine ⟨fun last => ?missing, fun inside => ?completes⟩
  case missing => exact (step_of_running running).trans (runCycle_last last)
  case completes =>
    have here : decodePair (opcodeAt s) (operandAt s) = .ok (instr (operandAt s)) := by
      rw [atIp]
      exact decoded _
    calc step s = runCycle s := step_of_running running
      _ = exec (instr (operandAt s)) s := runCycle_decoded inside here
      _ = .next (effect (operandAt s).toNat s) := meaning _ s

end Sys2Proof.Machine

namespace Sys2Proof.Proofs

open Machine Claims

/-- Settles O27: opcode byte 1 decodes to BXL of the operand byte, whose value is the literal. -/
theorem bxlByBytes : Obligations.BxlByBytes :=
  byteInstruction_of_exec (instr := .bxl) (fun _ => rfl) (fun _ _ => rfl)

/-- Settles O28: opcode byte 2 decodes to BST, which writes the combo value modulo 8. -/
theorem bstByBytes : Obligations.BstByBytes :=
  comboInstruction_of_exec (instr := .bst) (fun _ => rfl) (fun _ _ => rfl)

/-- Settles O29: opcode byte 4 decodes to BXC, whose meaning is the same for every operand byte. -/
theorem bxcByBytes : Obligations.BxcByBytes :=
  byteInstruction_of_exec (instr := .bxc) (fun _ => rfl) (fun _ _ => rfl)

end Sys2Proof.Proofs
end

section
/-! SUPPORT. Control transfer (spec/42_control.md R92): one step of JNZ from the bytes at IP. -/

namespace Sys2Proof.Machine

/-- JNZ always completes: the literal replaces IP when A is not 0, and IP advances by 2 when it is (R92). -/
theorem execJnz_eq (target : Byte) (s : State) :
    execJnz target s = .next (if s.a ≠ 0 then { s with ip := target.toNat } else { s with ip := s.ip + 2 }) := by
  by_cases zero : s.a = 0
  · simp [execJnz, jumpTaken, zero, advance]
  · simp [execJnz, jumpTaken, zero, jumpTo, literalValue]

end Sys2Proof.Machine

namespace Sys2Proof.Proofs

open Machine Claims

/-- Settles O30: opcode byte 3 decodes to JNZ of the operand byte, whose value is the target. -/
theorem jnzByBytes : Obligations.JnzByBytes :=
  byteInstruction_of_exec (instr := .jnz) (fun _ => rfl) execJnz_eq

end Sys2Proof.Proofs
end

section
/-! SUPPORT. Output (spec/43_output.md R100): the appended element as the value modulo 8, and one step of OUT from the
bytes at IP. -/

namespace Sys2Proof.Machine

/-- The 3-bit value `v[2:0]` is `v mod 8` (R8). -/
theorem lowThreeBits_eq_ofNat_mod (v : Nat) : lowThreeBits v = BitVec.ofNat 3 (v % 8) := by
  apply BitVec.eq_of_toNat_eq
  rw [lowThreeBits_toNat, BitVec.toNat_ofNat, Nat.mod_mod]

/-- OUT resolves its operand and appends the value modulo 8 (R100). -/
theorem execOut_eq_withCombo (o : Combo) (s : State) :
    execOut o s = withCombo o s fun v => advance (outAppend (BitVec.ofNat 3 (v % 8)) s) := by
  simp only [execOut, lowThreeBits_eq_ofNat_mod]

end Sys2Proof.Machine

namespace Sys2Proof.Proofs

open Machine Claims

/-- Settles O31: opcode byte 5 decodes to OUT, which appends the combo value modulo 8. -/
theorem outByBytes : Obligations.OutByBytes :=
  comboInstruction_of_exec (instr := .out) (fun _ => rfl) execOut_eq_withCombo

end Sys2Proof.Proofs
end

section
/-! SUPPORT. Halt and faults (spec/60_exceptions.md R105 to R112): when a decoded instruction raises ReservedCombo, and with
it the four stopping conditions in their order. -/

namespace Sys2Proof.Machine

open Claims

/-- A well-formed combo operand lacks a value exactly when its byte is 7 or larger (R49). -/
theorem comboValue_eq_none_iff {o : Combo} (wf : o.wf = true) (s : State) :
    comboValue o s = none ↔ 7 ≤ o.toByte.toNat := by
  cases o with
  | imm n => simp [Combo.toByte]; omega
  | reg r => cases r <;> simp [Combo.toByte]
  | reserved byte => simpa [Combo.wf, Combo.toByte] using wf

/-- A combo instruction whose effect keeps STATUS raises ReservedCombo on an operand byte of 7 or more, and keeps STATUS on
every other (R108). -/
theorem withCombo_status {o : Combo} {s t : State} {effect : Nat → State} (wf : o.wf = true)
    (h : withCombo o s effect = .next t) (keeps : ∀ v, (effect v).status = s.status) :
    if 7 ≤ o.toByte.toNat then t = raiseFault .reservedCombo s else t.status = s.status := by
  simp only [← comboValue_eq_none_iff wf s]
  rcases withCombo_cases h with ⟨v, hasValue, rfl⟩ | ⟨hasNone, rfl⟩
  · simp [hasValue, keeps]
  · simp [hasNone]

/-- A well-formed instruction raises ReservedCombo when it has a combo operand whose byte is 7 or more (R108), and keeps
STATUS otherwise. -/
theorem exec_status {i : Instr} {s t : State} (wf : i.wf = true) (h : exec i s = .next t) :
    if i.kind = .combo ∧ 7 ≤ i.operand.toNat then t = raiseFault .reservedCombo s else t.status = s.status := by
  cases i with
  | adv o => simpa [Instr.kind, Instr.operand] using withCombo_status wf h fun v => by simp
  | bxl literal => cases h; simp [Instr.kind]
  | bst o => simpa [Instr.kind, Instr.operand] using withCombo_status wf h fun v => by simp
  | jnz target => simp [Instr.kind, (execJnz_ip h).1]
  | bxc discarded => cases h; simp [Instr.kind]
  | out o => simpa [Instr.kind, Instr.operand] using withCombo_status wf h fun v => by simp
  | bdv o => simpa [Instr.kind, Instr.operand] using withCombo_status wf h fun v => by simp
  | cdv o => simpa [Instr.kind, Instr.operand] using withCombo_status wf h fun v => by simp

/-- Past the first three stopping conditions the two bytes at IP decode to an instruction, and the step is its meaning:
ReservedCombo on R108's condition on the bytes, and otherwise an execution that leaves the block Running. -/
theorem step_of_legal {s : State} (running : s.status = .running) (inside : s.ip + 1 < s.romLen)
    (legal : (opcodeAt s).toNat < 8) :
    ∃ i t, decode [opcodeAt s, operandAt s] = .ok (i, []) ∧ exec i s = .next t ∧ step s = .next t ∧
      if (opcodeAt s).toNat ∈ [0, 2, 5, 6, 7] ∧ 7 ≤ (operandAt s).toNat then t = raiseFault .reservedCombo s
      else t.status = .running := by
  obtain ⟨i, decoded, opcode, operand, wf⟩ := decodePair_legal (operandAt s) legal
  obtain ⟨t, executed⟩ := exec_answers_next i s
  have stepped : step s = .next t :=
    (step_of_running running).trans ((runCycle_decoded inside decoded).trans executed)
  have status := exec_status wf executed
  simp only [i.kind_eq_combo_iff, opcode, operand, running] at status
  exact ⟨i, t, decode_two_eq_ok_iff.mpr decoded, executed, stepped, status⟩

end Sys2Proof.Machine

namespace Sys2Proof.Proofs

open Machine Claims

/-- Settles O9: the fetch of a Running block finds no byte at or past ROM_LEN. -/
theorem haltStepSetsStatusOnly : Obligations.HaltStepSetsStatusOnly :=
  fun _ running past => (step_of_running running).trans (runCycle_past past)

/-- Settles O10: the two bounds leave IP = ROM_LEN - 1, where the fetch finds one byte and looks at no value. -/
theorem missingOperandIsRaised : Obligations.MissingOperandIsRaised :=
  fun _ running inside last => (step_of_running running).trans (runCycle_last (by omega))

/-- Settles O11: an opcode byte of 8 or more does not decode, whatever the operand byte. -/
theorem illegalOpcodeIsRaised : Obligations.IllegalOpcodeIsRaised :=
  fun _ running inside illegal => (step_of_running running).trans (runCycle_illegal inside illegal)

/-- Settles O13: the first three conditions are those of O9 to O11, and past them `step_of_legal` tells the fourth from an
execution. -/
theorem stoppingConditionsInOrder : Obligations.StoppingConditionsInOrder := by
  intro s running
  split_ifs with past last illegal reserved
  · exact haltStepSetsStatusOnly s running past
  · exact missingOperandIsRaised s running (by omega) last
  · exact illegalOpcodeIsRaised s running (by omega) illegal
  all_goals obtain ⟨i, t, decoded, executed, stepped, status⟩ := step_of_legal running (by omega) (by omega)
  · rw [if_pos reserved] at status
    rw [stepped, status, raiseFault]
  · rw [if_neg reserved] at status
    exact ⟨i, t, decoded, executed, stepped, status⟩

/-- Settles O12: R108's condition is the fourth stopping condition with the first three shut out, and every other end of the
step (O13) leaves another STATUS or CAUSE. -/
theorem reservedComboIsRaisedExactly : Obligations.ReservedComboIsRaisedExactly := by
  intro s running
  have order := stoppingConditionsInOrder s running
  split_ifs at order with past last illegal reserved
  · exact iff_of_false (by simp [order]) (by omega)
  · exact iff_of_false (by simp [order]) (by omega)
  · exact iff_of_false (by simp [order]) fun ⟨_, combo, _⟩ => by simp at combo; omega
  · exact iff_of_true order ⟨by omega, reserved⟩
  · obtain ⟨_, t, -, -, stepped, status⟩ := order
    refine iff_of_false (fun raised => ?_) fun ⟨_, condition⟩ => reserved condition
    cases stepped.symm.trans raised
    cases status

/-- Settles O14: of the three ways a step can end (O15), only the fault leaves STATUS Faulted. -/
theorem faultChangesStatusOnly : Obligations.FaultChangesStatusOnly := by
  intro s t cause stepped faulted
  obtain ⟨t', stepped', ends⟩ := runningAlwaysStepsAndStoppedNever.1 s (step_cases stepped).1
  cases stepped.symm.trans stepped'
  rcases ends with rfl | ⟨raised, rfl⟩ | ⟨running, -⟩
  · cases faulted
  · cases faulted
    rfl
  · cases running.symm.trans faulted

end Sys2Proof.Proofs
end

section
/-! SUPPORT. Reset, the end of a run and hazards (spec/70_reset_and_hazards.md R132, R140, R143): the arguments a LOAD
takes, that runs are deterministic and a stopped block stays where it is, and the value a register operand resolves to. -/

namespace Sys2Proof.Machine

/-- Fitting the ports is R132's bounds, which name the largest value of each port. -/
theorem LoadArgs.fits_iff_le {p : Params} {args : LoadArgs} :
    args.Fits p ↔ args.a0 ≤ 2 ^ p.xlen - 1 ∧ args.b0 ≤ 2 ^ p.xlen - 1 ∧ args.c0 ≤ 2 ^ p.xlen - 1 ∧
      args.rom.length ≤ 2 ^ p.ipw - 1 := by
  simp only [LoadArgs.Fits, Params.FitsReg, Params.FitsIp, Nat.le_sub_one_iff_lt (Nat.two_pow_pos _)]

/-- LOAD of arguments that do not fit the ports is refused, in every state (R132). -/
theorem load_of_not_fits {p : Params} {args : LoadArgs} (unfit : ¬ args.Fits p) (s : State) :
    load p args s = .refused .loadDoesNotFit := if_neg unfit

/-- A register operand always resolves, to the register's contents before the effect (R143). -/
theorem withCombo_reg (r : Reg) (s : State) (effect : Nat → State) :
    withCombo (.reg r) s effect = .next (effect (readReg r s)) :=
  withCombo_value (comboValue_reg r s) effect

/-- A division by a register takes A and the exponent from the state before the write, whatever the destination (R143). -/
theorem divideInto_reg (dest r : Reg) (s : State) :
    divideInto dest (.reg r) s = .next (advance (writeReg dest (s.a / 2 ^ readReg r s) s)) :=
  (divideInto_eq_withCombo dest (.reg r) s).trans (withCombo_reg r s _)

end Sys2Proof.Machine

namespace Sys2Proof

open Machine

/-- One step of a run. -/
def StepsTo (s t : State) : Prop := step s = .next t

theorem stepsTo_rightUnique : Relator.RightUnique StepsTo := by
  intro s t u toT toU
  cases toT.symm.trans toU
  rfl

/-- A stopped block has no step (R53, R113). -/
theorem not_stepsTo_of_stopped {s : State} (stopped : s.status ≠ .running) (t : State) : ¬ StepsTo s t :=
  fun stepped => stopped (step_cases stepped).1

/-- A run is the library's reflexive-transitive closure of one step. -/
theorem reaches_iff_reflTransGen {s t : State} : Reaches s t ↔ Relation.ReflTransGen StepsTo s t := by
  constructor
  · intro run
    induction run with
    | refl => exact .refl
    | tail _ last earlier => exact earlier.tail last
  · intro run
    induction run with
    | refl => exact .refl s
    | tail _ last earlier => exact earlier.tail last

/-- Of two states of one run, one comes after the other: each state has at most one step. -/
theorem Reaches.total {s t u : State} (toT : Reaches s t) (toU : Reaches s u) : Reaches t u ∨ Reaches u t := by
  simp only [reaches_iff_reflTransGen] at toT toU ⊢
  exact toT.total_of_right_unique stepsTo_rightUnique toU

theorem Reaches.eq_of_stopped {s t : State} (run : Reaches s t) (stopped : s.status ≠ .running) : t = s :=
  (Relation.reflTransGen_iff_eq (not_stepsTo_of_stopped stopped)).mp (reaches_iff_reflTransGen.mp run)

/-- A run stops in one state at most. -/
theorem Reaches.stopped_unique {s t u : State} (toT : Reaches s t) (toU : Reaches s u)
    (stoppedT : t.status ≠ .running) (stoppedU : u.status ≠ .running) : t = u := by
  rcases toT.total toU with onward | onward
  · exact (onward.eq_of_stopped stoppedT).symm
  · exact onward.eq_of_stopped stoppedU

/-- The state a run stops in decides its result: its tuple if it is Halted, and none otherwise (R140). -/
theorem hasResult_iff_of_reaches_stopped {s t : State} (run : Reaches s t) (stopped : t.status ≠ .running)
    (r : RunResult) : HasResult s r ↔ t.status = .halted ∧ resultOf t = r := by
  refine ⟨fun ⟨u, toU, halted, result⟩ => ?_, fun ⟨halted, result⟩ => ⟨t, run, halted, result⟩⟩
  obtain rfl : t = u := run.stopped_unique toU stopped (by simp [halted])
  exact ⟨halted, result⟩

end Sys2Proof

namespace Sys2Proof.Proofs

open Machine Claims

/-- Settles O53: the first two cases are the two statuses of a run that has stopped, and in the third no state that the run
reaches is Halted. -/
theorem resultOfARun : Obligations.ResultOfARun := by
  refine ⟨fun s t run halted r => ?halted, fun s t cause run faulted r => ?faulted,
    fun s endless r ⟨t, run, halted, _⟩ => ?endless⟩
  case halted =>
    rw [hasResult_iff_of_reaches_stopped run (by simp [halted])]
    exact ⟨fun ⟨_, result⟩ => result.symm, fun result => ⟨halted, result.symm⟩⟩
  case faulted =>
    rw [hasResult_iff_of_reaches_stopped run (by simp [faulted])]
    simp [faulted]
  case endless => cases (endless t run).symm.trans halted

/-- Settles O33: the combo operands resolve on the state before the write, and BXL and BXC read B there. -/
theorem oldValueIsRead : Obligations.OldValueIsRead := by
  intro s
  exact ⟨divideInto_reg .a .a s, divideInto_reg .b .b s, divideInto_reg .c .c s,
    withCombo_reg .b s fun v => advance (writeReg .b (mod8 v) s), fun _ => rfl, fun _ => rfl⟩

/-- Settles O44: R132's bounds are the test that LOAD makes. -/
theorem loadTakesWhatFitsOnly : Obligations.LoadTakesWhatFitsOnly := by
  intro p args s
  rw [← LoadArgs.fits_iff_le]
  exact ⟨fun fits => ⟨_, load_of_fits fits s⟩, fun unfit => load_of_not_fits unfit s⟩

end Sys2Proof.Proofs
end

section
/-! SUPPORT. The codec (spec/30_encoding.md R45, R46, R50, R54, R55): decoding undoes encoding and encoding undoes decoding,
the word of the opcode table is the byte pair, and the outputs of the Operand Resolver. -/

namespace Sys2Proof

/-- A well-formed combo operand is read back from its byte. -/
theorem Combo.ofByte_toByte {o : Combo} (wf : o.wf = true) : Combo.ofByte o.toByte = o := by
  cases o with
  | imm n => revert n; decide
  | reg r => cases r <;> rfl
  | reserved byte => exact Combo.ofByte_of_reserved (of_decide_eq_true wf)

/-- A well-formed instruction is read back from its opcode byte and operand byte. -/
theorem decodePair_opcode_operand {i : Instr} (wf : i.wf = true) : decodePair i.opcode i.operand = .ok i := by
  have read {o : Combo} (wf : o.wf = true) (instr : Combo → Instr) :
      Except.ok (ε := DecodeError) (instr (Combo.ofByte o.toByte)) = .ok (instr o) := by
    rw [Combo.ofByte_toByte wf]
  cases i with
  | adv o => exact read wf .adv
  | bxl literal => rfl
  | bst o => exact read wf .bst
  | jnz target => rfl
  | bxc discarded => rfl
  | out o => exact read wf .out
  | bdv o => exact read wf .bdv
  | cdv o => exact read wf .cdv

/-- What decodes has two bytes in front that `decodePair` reads, and the rest behind them. -/
theorem decode_eq_ok_iff {bytes rest : List Byte} {i : Instr} :
    decode bytes = .ok (i, rest) ↔ ∃ x y, bytes = x :: y :: rest ∧ decodePair x y = .ok i := by
  match bytes with
  | [] => simp
  | [_] => simp
  | x :: y :: later =>
    rw [decode_pair]
    cases pair : decodePair x y <;> simp [Except.map, pair, and_comm]

/-- The decoder reads a table word as its two bytes (R46). -/
theorem decodeTableWord_eq_some_iff {w : Nat} {i : Instr} :
    decodeTableWord 16 w = some i ↔ decodePair (tableWordBytes 16 w).1 (tableWordBytes 16 w).2 = .ok i := by
  simp only [decodeTableWord, decode_pair, le_refl, if_true]
  cases decodePair (tableWordBytes 16 w).1 (tableWordBytes 16 w).2 <;> simp [Except.map]

/-- The bytes of the word `opc * 256 + opd` are `opc` and `opd`. -/
theorem tableWordBytes_of_pair (opc opd : Byte) : tableWordBytes 16 (opc.toNat * 256 + opd.toNat) = (opc, opd) := by
  have opcLt := opc.isLt
  have opdLt := opd.isLt
  apply Prod.ext <;> apply BitVec.eq_of_toNat_eq <;> simp only [tableWordBytes, BitVec.toNat_ofNat] <;> omega

end Sys2Proof

namespace Sys2Proof.Machine

/-- The `invalid` signal is 1 exactly when the kind is combo and the operand byte is 7 or more (R50). -/
theorem resolverInvalid_iff (kind : BitVec 2) (opd : Byte) :
    resolverInvalid kind opd = true ↔ kind = kindCode .combo ∧ 7 ≤ opd.toNat := by
  simp [resolverInvalid, kindCode, BitVec.ule]

/-- For a combo operand the resolver's value is the multiplexer's combo input, where there is one (R50). -/
theorem resolverValue_combo {w : Nat} {opd : Byte} {a b c value : BitVec w} (input : comboInput opd a b c = some value) :
    resolverValue (kindCode .combo) opd a b c = value := by
  simp [resolverValue, kindCode, input]

end Sys2Proof.Machine

namespace Sys2Proof.Proofs

open Machine Claims

/-- Settles O3: the encoding is the opcode byte and the operand byte, which `decodePair` reads back. -/
theorem decodeOfEncode : Obligations.DecodeOfEncode :=
  fun i _ wf => decode_eq_ok_iff.mpr ⟨i.opcode, i.operand, rfl, decodePair_opcode_operand wf⟩

/-- Settles O4: the two bytes read are the decoded instruction's own. -/
theorem encodeOfDecode : Obligations.EncodeOfDecode := by
  intro bytes rest i decoded
  obtain ⟨x, y, rfl, pair⟩ := decode_eq_ok_iff.mp decoded
  obtain ⟨rfl, rfl, wf⟩ := decodePair_ok pair
  exact ⟨wf, rfl⟩

/-- Settles O1, word by word. -/
theorem sampleWordsDecode : Obligations.SampleWordsDecode :=
  ⟨rfl, rfl, rfl, rfl, rfl, rfl, rfl, rfl, rfl, rfl⟩

/-- Settles O2: the eight assigned opcode bytes by computation, and the others by `decodePair_illegal`. -/
theorem opcodeByteSelectsInstruction : Obligations.OpcodeByteSelectsInstruction := by
  intro opd rest
  refine ⟨rfl, rfl, rfl, rfl, rfl, rfl, rfl, rfl, fun x illegal => ?_⟩
  rw [decode_pair, decodePair_illegal opd illegal]
  rfl

/-- Settles O5: the word's bytes are the pair. -/
theorem tableWordIsTheBytePair : Obligations.TableWordIsTheBytePair := by
  intro opc opd i
  rw [decodeTableWord_eq_some_iff, tableWordBytes_of_pair, decode_two_eq_ok_iff]

/-- Settles O8: the fetch finds the two bytes, and the cycle runs what they decode to. -/
theorem stepRunsDecodedInstruction : Obligations.StepRunsDecodedInstruction :=
  fun _ _ running inside decoded =>
    (step_of_running running).trans (runCycle_decoded inside (decode_two_eq_ok_iff.mp decoded))

/-- Settles O58: `value` is the multiplexer's input by kind and operand byte, and `invalid` is `resolverInvalid_iff`. -/
theorem operandResolverSignals : Obligations.OperandResolverSignals := by
  refine ⟨rfl, rfl, rfl, fun w opd a b c => ⟨rfl, fun small => ?_, fun isA => ?_, fun isB => ?_, fun isC => ?_, rfl,
    fun kind => resolverInvalid_iff kind opd⟩⟩
  · exact resolverValue_combo (if_pos small)
  · obtain rfl : opd = 4 := BitVec.eq_of_toNat_eq isA
    exact resolverValue_combo rfl
  · obtain rfl : opd = 5 := BitVec.eq_of_toNat_eq isB
    exact resolverValue_combo rfl
  · obtain rfl : opd = 6 := BitVec.eq_of_toNat_eq isC
    exact resolverValue_combo rfl

end Sys2Proof.Proofs
end

section
/-! SUPPORT. The eight meanings (spec/40_division.md R70 to R72, spec/41_bitwise.md R80 to R82, spec/42_control.md R92,
spec/43_output.md R100): the result each instruction completes with, and the fault of a reserved combo operand. -/

namespace Sys2Proof.Machine

/-- An instruction that resolves its combo operand and then does `effect` completes with the effect of the operand's value,
and raises ReservedCombo on a reserved operand. -/
theorem combo_completes {instr : Combo → Instr} {effect : Nat → State → State}
    (meaning : ∀ o s, exec (instr o) s = withCombo o s (effect · s)) :
    (∀ (o : Combo) (s : State) (v : Nat), comboValue o s = some v → exec (instr o) s = .next (effect v s)) ∧
    (∀ (x : Byte) (s : State), exec (instr (.reserved x)) s = .next { s with status := .faulted .reservedCombo }) :=
  ⟨fun o s _ hasValue => (meaning o s).trans (withCombo_value hasValue _),
    fun x s => (meaning (.reserved x) s).trans (withCombo_reserved x s _)⟩

end Sys2Proof.Machine

namespace Sys2Proof.Proofs

open Machine Claims

/-- Settles O16: ADV is the division into A. -/
theorem advCompletes : Obligations.AdvCompletes := combo_completes (divideInto_eq_withCombo .a)

/-- Settles O17: BDV is the division into B. -/
theorem bdvCompletes : Obligations.BdvCompletes := combo_completes (divideInto_eq_withCombo .b)

/-- Settles O18: CDV is the division into C. -/
theorem cdvCompletes : Obligations.CdvCompletes := combo_completes (divideInto_eq_withCombo .c)

/-- Settles O19: BXL has no operand to resolve. -/
theorem bxlCompletes : Obligations.BxlCompletes := fun _ _ => rfl

/-- Settles O20: BST writes the value modulo 8 to B. -/
theorem bstCompletes : Obligations.BstCompletes := combo_completes (instr := .bst) fun _ _ => rfl

/-- Settles O21: BXC has no operand to resolve. -/
theorem bxcCompletes : Obligations.BxcCompletes := fun _ _ => rfl

/-- Settles O22: `execJnz_eq` on each side of JNZ's test. -/
theorem jnzCompletes : Obligations.JnzCompletes := by
  intro target s
  have completes : exec (.jnz target) s = _ := execJnz_eq target s
  exact ⟨fun taken => by rw [completes, if_pos taken], fun zero => by rw [completes, if_neg (not_not.mpr zero)]⟩

/-- Settles O23: OUT appends the value modulo 8. -/
theorem outCompletes : Obligations.OutCompletes := combo_completes (instr := .out) execOut_eq_withCombo

end Sys2Proof.Proofs
end

section
/-! SUPPORT. What an instruction and a step leave unchanged (spec/10_state.md R12, R17, R21, R28, spec/20_memory.md R30): the
registers an instruction does not write, the ROM, OUT but for the presented element, and STATUS, which neither the registers
nor OUT decide. -/

namespace Sys2Proof.Machine

open Claims

/-- Only a reserved operand has no value. -/
theorem eq_reserved_of_comboValue_eq_none {o : Combo} {s : State} (noValue : comboValue o s = none) :
    ∃ x, o = .reserved x := by
  cases o with
  | imm n => cases noValue
  | reg r => cases noValue
  | reserved x => exact ⟨x, rfl⟩

/-- A combo instruction keeps whatever its effect and the fault both keep. -/
theorem withCombo_keeps {α : Type} (part : State → α) {o : Combo} {s t : State} {effect : Nat → State}
    (h : withCombo o s effect = .next t) (effectKeeps : ∀ v, part (effect v) = part s)
    (faultKeeps : part (raiseFault .reservedCombo s) = part s) : part t = part s := by
  rcases withCombo_cases h with ⟨v, -, rfl⟩ | ⟨-, rfl⟩
  · exact effectKeeps v
  · exact faultKeeps

/-- A combo instruction whose effect keeps STATUS changes it on a reserved operand alone. -/
theorem withCombo_status_or_reserved {o : Combo} {s t : State} {effect : Nat → State}
    (h : withCombo o s effect = .next t) (keeps : ∀ v, (effect v).status = s.status) :
    t.status = s.status ∨ t.status = .faulted .reservedCombo ∧ ∃ x, o = .reserved x := by
  rcases withCombo_cases h with ⟨v, -, rfl⟩ | ⟨noValue, rfl⟩
  · exact .inl (keeps v)
  · exact .inr ⟨rfl, eq_reserved_of_comboValue_eq_none noValue⟩

/-- Writing a register and advancing keeps every other register. -/
theorem readReg_advance_writeReg {q r : Reg} (other : some q ≠ some r) (v : Nat) (s : State) :
    readReg r (advance (writeReg q v s)) = readReg r s := by
  rw [readReg_advance, readReg_writeReg_of_ne]
  rintro rfl
  exact other rfl

/-- A meaning keeps every register but the one its instruction may write (R12). -/
theorem exec_readReg {i : Instr} {s t : State} {r : Reg} (h : exec i s = .next t) (other : mayWrite i ≠ some r) :
    readReg r t = readReg r s := by
  have combo {o : Combo} {effect : Nat → State} (h : withCombo o s effect = .next t)
      (keeps : ∀ v, readReg r (effect v) = readReg r s) : readReg r t = readReg r s :=
    withCombo_keeps (readReg r) h keeps (readReg_raiseFault r _ s)
  cases i with
  | adv o => exact combo h fun _ => readReg_advance_writeReg other _ s
  | bxl literal => cases h; exact readReg_advance_writeReg other _ s
  | bst o => exact combo h fun _ => readReg_advance_writeReg other _ s
  | jnz target =>
    cases h
    rw [apply_ite (readReg r), readReg_jumpTo, readReg_advance, ite_self]
  | bxc discarded => cases h; exact readReg_advance_writeReg other _ s
  | out o => exact combo h fun v => by simp
  | bdv o => exact combo h fun _ => readReg_advance_writeReg other _ s
  | cdv o => exact combo h fun _ => readReg_advance_writeReg other _ s

/-- No meaning changes the ROM or ROM_LEN (R30). -/
theorem exec_rom {i : Instr} {s t : State} (h : exec i s = .next t) : t.rom = s.rom ∧ t.romLen = s.romLen := by
  obtain (⟨r, v⟩ | ⟨v⟩ | _ | ⟨target, taken⟩) | rfl := exec_cases h <;> simp

/-- No step changes the ROM or ROM_LEN (R30). -/
theorem step_rom {s t : State} (h : step s = .next t) : t.rom = s.rom ∧ t.romLen = s.romLen := by
  obtain ⟨-, ⟨-, rfl⟩ | ⟨-, rfl⟩ | ⟨-, -, rfl⟩ | ⟨-, i, -, executed⟩⟩ := step_cases h
  · exact ⟨rfl, rfl⟩
  · exact ⟨rfl, rfl⟩
  · exact ⟨rfl, rfl⟩
  · exact exec_rom executed

/-- The elements an instruction presents on the out stream: the low three bits of an OUT's operand value, and none for any
other instruction (R134). -/
def presentedBy (i : Instr) (s : State) : List OutVal :=
  match i with
  | .out o => ((comboValue o s).map lowThreeBits).toList
  | _ => []

/-- A meaning appends to OUT exactly what its instruction presents. -/
theorem exec_out {i : Instr} {s t : State} (h : exec i s = .next t) : t.out = s.out ++ presentedBy i s := by
  have combo {o : Combo} {effect : Nat → State} (h : withCombo o s effect = .next t)
      (keeps : ∀ v, (effect v).out = s.out) : t.out = s.out ++ [] :=
    (withCombo_keeps State.out h keeps rfl).trans (List.append_nil _).symm
  cases i with
  | adv o => exact combo h fun _ => rfl
  | bxl literal => cases h; exact (List.append_nil _).symm
  | bst o => exact combo h fun _ => rfl
  | jnz target => cases h; simp [apply_ite State.out, presentedBy]
  | bxc discarded => cases h; exact (List.append_nil _).symm
  | out o =>
    rcases withCombo_cases h with ⟨v, hasValue, rfl⟩ | ⟨noValue, rfl⟩
    · simp [presentedBy, hasValue]
    · simp [presentedBy, noValue]
  | bdv o => exact combo h fun _ => rfl
  | cdv o => exact combo h fun _ => rfl

theorem presentedBy_eq_nil {i : Instr} (noOut : ∀ o, i ≠ .out o) (s : State) : presentedBy i s = [] := by
  cases i with
  | out o => exact absurd rfl (noOut o)
  | _ => rfl

/-- What an instruction presents, by its two bytes: opcode byte 5 and R49's table of the operand byte. -/
theorem presentedBy_of_bytes {i : Instr} (wf : i.wf = true) (s : State) :
    presentedBy i s = if i.opcode = 5 then ((comboByte i.operand s).map lowThreeBits).toList else [] := by
  cases i with
  | out o =>
    rw [if_pos (show (Instr.out o).opcode = 5 from rfl), Instr.operand, ← comboValue_ofByte, Combo.ofByte_toByte wf,
      presentedBy]
  | _ => rfl

/-- Where two bytes at IP decode, the out stream presents what their instruction does. -/
theorem presented_of_decoded {s : State} {i : Instr} (inside : s.ip + 1 < s.romLen)
    (decoded : decodePair (s.rom.read s.ip) (s.rom.read (s.ip + 1)) = .ok i) : presented s = presentedBy i s := by
  simp only [presented, fetchBytes_pair inside, decode, decoded]
  cases i with
  | out o => cases value : comboValue o s <;> simp [presentedBy, value]
  | _ => rfl

/-- Past the last whole instruction nothing is presented. -/
theorem presented_of_short {s : State} (short : s.romLen ≤ s.ip + 1) : presented s = [] := by
  rcases Nat.lt_or_ge s.ip s.romLen with inside | past
  · simp [presented, fetchBytes_last (show s.ip + 1 = s.romLen by omega)]
  · simp [presented, fetchBytes_past past]

theorem presented_of_illegal {s : State} (inside : s.ip + 1 < s.romLen) (illegal : 8 ≤ (s.rom.read s.ip).toNat) :
    presented s = [] := by
  simp [presented, fetchBytes_pair inside, decode, decodePair_illegal _ illegal]

/-- A step appends to OUT exactly what the out stream presents (R134). -/
theorem step_out {s t : State} (h : step s = .next t) : t.out = s.out ++ presented s := by
  obtain ⟨-, ⟨past, rfl⟩ | ⟨last, rfl⟩ | ⟨inside, illegal, rfl⟩ | ⟨inside, i, decoded, executed⟩⟩ := step_cases h
  · simp [presented_of_short (show s.romLen ≤ s.ip + 1 by omega)]
  · simp [presented_of_short last.ge]
  · simp [presented_of_illegal inside illegal]
  · rw [presented_of_decoded inside decoded, exec_out executed]

/-- What the out stream presents, on the raw bytes at IP. -/
theorem presented_of_bytes (s : State) :
    presented s = if s.ip + 1 < s.romLen ∧ opcodeAt s = 5 then
      ((comboByte (operandAt s) s).map lowThreeBits).toList else [] := by
  by_cases inside : s.ip + 1 < s.romLen
  · by_cases legal : (opcodeAt s).toNat < 8
    · obtain ⟨i, decoded, opcode, operand, wf⟩ := decodePair_legal (operandAt s) legal
      rw [presented_of_decoded inside decoded, presentedBy_of_bytes wf, opcode, operand]
      simp only [inside, true_and]
    · rw [presented_of_illegal inside (not_lt.mp legal), if_neg]
      rintro ⟨-, isOut⟩
      exact legal (by rw [isOut]; decide)
  · rw [presented_of_short (not_lt.mp inside), if_neg fun both => inside both.1]

/-- `s` with other elements in front of OUT. -/
def prependOut (front : List OutVal) (s : State) : State := { s with out := front ++ s.out }

theorem comboValue_prependOut (front : List OutVal) (o : Combo) (s : State) :
    comboValue o (prependOut front s) = comboValue o s := by
  cases o with
  | imm n => rfl
  | reg r => cases r <;> rfl
  | reserved x => rfl

/-- A combo instruction whose effect carries elements in front of OUT along does so itself. -/
theorem withCombo_prependOut {front : List OutVal} {o : Combo} {s t : State} {effect effect' : Nat → State}
    (h : withCombo o s effect = .next t) (carried : ∀ v, effect' v = prependOut front (effect v)) :
    withCombo o (prependOut front s) effect' = .next (prependOut front t) := by
  simp only [withCombo, comboValue_prependOut]
  rcases withCombo_cases h with ⟨v, hasValue, rfl⟩ | ⟨noValue, rfl⟩
  · simp only [hasValue, carried]
  · simp only [noValue]
    rfl

/-- A meaning carries elements in front of OUT along. -/
theorem exec_prependOut {i : Instr} {s t : State} (front : List OutVal) (h : exec i s = .next t) :
    exec i (prependOut front s) = .next (prependOut front t) := by
  cases i with
  | adv o => exact withCombo_prependOut h fun _ => rfl
  | bxl literal => cases h; rfl
  | bst o => exact withCombo_prependOut h fun _ => rfl
  | jnz target =>
    cases h
    by_cases zero : s.a = 0 <;> simp [exec, execJnz, jumpTaken, prependOut, zero, advance, jumpTo]
  | bxc discarded => cases h; rfl
  | out o => exact withCombo_prependOut h fun v => by simp [prependOut, outAppend, advance]
  | bdv o => exact withCombo_prependOut h fun _ => rfl
  | cdv o => exact withCombo_prependOut h fun _ => rfl

/-- A step carries elements in front of OUT along. -/
theorem step_prependOut {s t : State} (front : List OutVal) (h : step s = .next t) :
    step (prependOut front s) = .next (prependOut front t) := by
  obtain ⟨running, rest⟩ := step_cases h
  rw [step_of_running (s := prependOut front s) running]
  obtain ⟨past, rfl⟩ | ⟨last, rfl⟩ | ⟨inside, illegal, rfl⟩ | ⟨inside, i, decoded, executed⟩ := rest
  · exact runCycle_past (s := prependOut front s) past
  · exact runCycle_last (s := prependOut front s) last
  · exact runCycle_illegal (s := prependOut front s) inside illegal
  · exact (runCycle_decoded (s := prependOut front s) inside decoded).trans (exec_prependOut front executed)

/-- STATUS after a step, by R112's order of the stopping conditions: the ROM, ROM_LEN and IP decide it. -/
def statusAfterStep (rom : Memory) (romLen ip : Nat) : Status :=
  if romLen ≤ ip then .halted
  else if romLen ≤ ip + 1 then .faulted .missingOperand
  else if 8 ≤ (rom.read ip).toNat then .faulted .illegalOpcode
  else if (rom.read ip).toNat ∈ [0, 2, 5, 6, 7] ∧ 7 ≤ (rom.read (ip + 1)).toNat then .faulted .reservedCombo
  else .running

theorem step_status {s t : State} (h : step s = .next t) : t.status = statusAfterStep s.rom s.romLen s.ip := by
  have order := Proofs.stoppingConditionsInOrder s (step_cases h).1
  have ends {u : State} (stepped : step s = .next u) : t = u := stepsTo_rightUnique h stepped
  unfold opcodeAt operandAt at order
  unfold statusAfterStep
  split_ifs at order ⊢
  · rw [ends order]
  · rw [ends order]
  · rw [ends order]
  · rw [ends order]
  · obtain ⟨_, u, -, -, stepped, running⟩ := order
    rw [ends stepped, running]

end Sys2Proof.Machine

namespace Sys2Proof

open Machine

/-- What every step keeps holds along a run. -/
theorem Reaches.keeps {P : State → Prop} {s t : State} (run : Reaches s t)
    (step_keeps : ∀ s t, P s → step s = .next t → P t) (start : P s) : P t := by
  induction run with
  | refl => exact start
  | tail _ last earlier => exact step_keeps _ _ earlier last

/-- No run changes the ROM or ROM_LEN. -/
theorem Reaches.rom {s t : State} (run : Reaches s t) : t.rom = s.rom ∧ t.romLen = s.romLen :=
  run.keeps (P := fun u => u.rom = s.rom ∧ u.romLen = s.romLen)
    (fun _ _ ⟨rom, romLen⟩ last => ⟨(step_rom last).1.trans rom, (step_rom last).2.trans romLen⟩) ⟨rfl, rfl⟩

end Sys2Proof

namespace Sys2Proof.Machine

/-- LOAD answers a next state when its arguments fit, and then the loaded state (R131, R132). -/
theorem load_eq_next_iff {p : Params} {args : LoadArgs} {s t : State} :
    load p args s = .next t ↔ args.Fits p ∧ t = loadedState args := by
  unfold load
  split_ifs with fits
  · exact ⟨fun h => ⟨fits, (Host.Outcome.next.inj h).symm⟩, fun ⟨_, h⟩ => h ▸ rfl⟩
  · exact ⟨nofun, fun ⟨h, _⟩ => absurd h fits⟩

end Sys2Proof.Machine

namespace Sys2Proof.Proofs

open Machine Claims

/-- Settles O35, by `exec_readReg`. -/
theorem registerWritersAreFixed : Obligations.RegisterWritersAreFixed :=
  fun _ _ _ _ executed other => exec_readReg executed other

/-- Settles O36: the ROM by `exec_rom`, OUT because only OUT presents an element, and STATUS instruction by instruction. -/
theorem instructionsKeepTheRest : Obligations.InstructionsKeepTheRest := by
  intro i s t executed
  obtain ⟨rom, romLen⟩ := exec_rom executed
  refine ⟨rom, romLen, fun n => by rw [rom], fun noOut => ?_, ?_⟩
  · rw [exec_out executed, presentedBy_eq_nil noOut, List.append_nil]
  · cases i with
    | adv o => simpa using withCombo_status_or_reserved executed fun v => rfl
    | bxl literal => cases executed; exact .inl rfl
    | bst o => simpa using withCombo_status_or_reserved executed fun v => rfl
    | jnz target => exact .inl (execJnz_ip executed).1
    | bxc discarded => cases executed; exact .inl rfl
    | out o => simpa using withCombo_status_or_reserved executed fun v => rfl
    | bdv o => simpa using withCombo_status_or_reserved executed fun v => rfl
    | cdv o => simpa using withCombo_status_or_reserved executed fun v => rfl

/-- Settles O37: no run changes the ROM, and LOAD filled it with the program. -/
theorem fetchReturnsTheLoadedBytes : Obligations.FetchReturnsTheLoadedBytes := by
  intro p args s loaded t loads run
  obtain ⟨-, rfl⟩ := load_eq_next_iff.mp loads
  obtain ⟨rom, romLen⟩ := run.rom
  rw [rom, romLen]
  exact ⟨rfl, fun n inside => getElem?_eq_read_loadedState inside⟩

/-- Settles O39, by `step_out` and `presented_of_bytes`. -/
theorem outStreamIsOut : Obligations.OutStreamIsOut := by
  intro s t stepped
  refine ⟨step_out stepped, ?_⟩
  rw [presented_of_bytes]
  cases comboByte (operandAt s) s <;> simp [lowThreeBits_eq_ofNat_mod]

/-- Settles O40: each step only appends. -/
theorem outOnlyGrows : Obligations.OutOnlyGrows :=
  fun s _ run => run.keeps (P := fun u => s.out <+: u.out)
    (fun _ _ earlier last => earlier.trans (step_out last ▸ List.prefix_append _ _)) (List.prefix_refl _)

/-- Settles O41, by `step_prependOut`. -/
theorem nothingReadsOut : Obligations.NothingReadsOut :=
  fun _ _ front stepped => step_prependOut front stepped

/-- Settles O42: `step_status` names no register. -/
theorem faultsIgnoreRegisters : Obligations.FaultsIgnoreRegisters := by
  intro s s' t t' cause rom romLen ip stepped stepped'
  rw [step_status stepped, step_status stepped', rom, romLen, ip]

end Sys2Proof.Proofs
end

section
/-! SUPPORT. Reset, the ports and a placed word (spec/10_state.md R18, R19, R26, spec/70_reset_and_hazards.md R130,
spec/30_encoding.md R46): the codes of STATUS and CAUSE, and what the next step fetches after a word is placed. -/

namespace Sys2Proof.Machine

/-- A number below `2 ^ w` is read back whole from `w` bits. -/
theorem toNat_ofNat_of_lt {w n : Nat} (fits : n < 2 ^ w) : (BitVec.ofNat w n).toNat = n :=
  (BitVec.toNat_ofNat n w).trans (Nat.mod_eq_of_lt fits)

/-- STATUS reads 0, 1 and 2 for its three constructors, and never the reserved 3 (R18). -/
theorem Status.code_spec (status : Status) :
    (status.code = 0 ↔ status = .running) ∧ (status.code = 1 ↔ status = .halted) ∧
    (status.code = 2 ↔ ∃ cause, status = .faulted cause) ∧ status.code ≠ 3 := by
  cases status <;> simp [Status.code]

/-- CAUSE is 0 exactly when STATUS is not Faulted, and otherwise the number of the cause (R19). -/
theorem Status.causeCode_spec (status : Status) :
    (status.causeCode = 0 ↔ status.code ≠ 2) ∧ (status.causeCode = 1 ↔ status = .faulted .missingOperand) ∧
    (status.causeCode = 2 ↔ status = .faulted .illegalOpcode) ∧
    (status.causeCode = 3 ↔ status = .faulted .reservedCombo) := by
  cases status with
  | running => simp [Status.causeCode, Status.code]
  | halted => simp [Status.causeCode, Status.code]
  | faulted cause => cases cause <;> simp [Status.causeCode, Status.code]

theorem withFetchWord_rom_read {s : State} (wf : s.rom.wf = true) (w n : Nat) :
    (s.withFetchWord 16 w).rom.read n =
      if s.ip + 1 = n then (tableWordBytes 16 w).2
      else if s.ip = n then (tableWordBytes 16 w).1 else s.rom.read n := by
  simp only [State.withFetchWord, placeInstruction_rom]
  rw [Memory.read_write (Memory.wf_write wf _ _), Memory.read_write wf]

/-- After a word that decodes is placed, the next step runs its instruction. -/
theorem step_withFetchWord {s : State} {w : Nat} {i : Instr} (wf : s.rom.wf = true)
    (decoded : decodeTableWord 16 w = some i) : step (s.withFetchWord 16 w) = exec i (s.withFetchWord 16 w) := by
  have inside : (s.withFetchWord 16 w).ip + 1 < (s.withFetchWord 16 w).romLen := by simp [State.withFetchWord]
  have ip : (s.withFetchWord 16 w).ip = s.ip := rfl
  rw [step_of_running (s := s.withFetchWord 16 w) rfl, runCycle_decoded inside]
  rw [ip, withFetchWord_rom_read wf, withFetchWord_rom_read wf, if_neg (by omega), if_pos rfl, if_pos rfl]
  exact decodeTableWord_eq_some_iff.mp decoded

end Sys2Proof.Machine

namespace Sys2Proof

open Machine

/-- A loaded state meets the invariant when its arguments fit the ports. -/
theorem inv_loadedState {p : Params} {args : LoadArgs} (fits : args.Fits p) : Inv p (loadedState args) := by
  obtain ⟨a, b, c, romLen⟩ := fits
  exact
    { a_fits := a
      b_fits := b
      c_fits := c
      romLen_fits := romLen
      ip_le := Nat.zero_le _
      rom_wf := Memory.wf_ofBytes args.rom
      rom_below := Memory.below_ofBytes args.rom
      halted_ip := nofun
      missing_ip := nofun
      illegal_ip := nofun
      reserved_ip := nofun }

/-- The arguments of the empty LOAD with zeros. -/
def emptyLoad : LoadArgs := { rom := [], a0 := 0, b0 := 0, c0 := 0 }

theorem emptyLoad_fits (p : Params) : emptyLoad.Fits p :=
  ⟨Nat.two_pow_pos _, Nat.two_pow_pos _, Nat.two_pow_pos _, Nat.two_pow_pos _⟩

end Sys2Proof

namespace Sys2Proof.Proofs

open Machine Claims

/-- Settles O45: the zeros fit every port, and the loaded state is the reset state. -/
theorem resetIsAnEmptyLoad : Obligations.ResetIsAnEmptyLoad :=
  fun p s => ⟨load_of_fits (emptyLoad_fits p) s, rfl, rfl, rfl⟩

/-- Settles O46: the codes of STATUS and CAUSE, and numbers that fit their port are read whole. -/
theorem portsShowTheState : Obligations.PortsShowTheState := by
  intro p s
  obtain ⟨running, halted, faulted, reserved⟩ := s.status.code_spec
  obtain ⟨none, missing, illegal, combo⟩ := s.status.causeCode_spec
  exact ⟨running, halted, faulted, reserved, none, missing, illegal, combo, rfl, toNat_ofNat_of_lt,
    toNat_ofNat_of_lt, toNat_ofNat_of_lt, toNat_ofNat_of_lt⟩

/-- Settles O47, by `step_withFetchWord` and `withFetchWord_rom_read`. -/
theorem placedWordRunsNext : Obligations.PlacedWordRunsNext := by
  intro s w i wf decoded
  refine ⟨step_withFetchWord wf decoded, fun n notOpcode notOperand => ?_⟩
  rw [withFetchWord_rom_read wf, if_neg notOperand.symm, if_neg notOpcode.symm]

/-- Settles O49: LOAD answers the loaded state, and that of arguments that fit. -/
theorem loadMeetsInvariant : Obligations.LoadMeetsInvariant := by
  intro p args s t loads
  obtain ⟨fits, rfl⟩ := load_eq_next_iff.mp loads
  exact inv_loadedState fits

/-- Settles O48: the reset state is what the empty LOAD leaves (O45). -/
theorem resetMeetsInvariant : Obligations.ResetMeetsInvariant :=
  fun p => inv_loadedState (emptyLoad_fits p)

end Sys2Proof.Proofs
end

section
/-! SUPPORT. The invariant (spec/10_state.md R13, R16, R28, spec/00_scope.md R6): every step keeps it, so no value ever leaves
its field. -/

namespace Sys2Proof.Machine

/-- Every register is below `2 ^ width` (R13). -/
def RegsBelow (width : Nat) (s : State) : Prop := ∀ r, readReg r s < 2 ^ width

/-- Writing a value that fits and advancing keeps the registers within the width. -/
theorem RegsBelow.write {width : Nat} {s : State} (below : RegsBelow width s) {v : Nat} (fits : v < 2 ^ width) (q : Reg) :
    RegsBelow width (advance (writeReg q v s)) := by
  intro r
  rw [readReg_advance]
  by_cases same : r = q
  · subst same
    rwa [readReg_writeReg]
  · rw [readReg_writeReg_of_ne same]
    exact below r

/-- A value of one byte fits every legal register. -/
theorem lt_two_pow_of_lt_byte {v width : Nat} (legal : 8 ≤ width) (small : v < 2 ^ 8) : v < 2 ^ width :=
  small.trans_le (Nat.pow_le_pow_right (by decide) legal)

/-- No meaning takes a register out of its width: a quotient is no larger than A, the exclusive or of two values stays
within their width, and the other results are of one byte (R13). -/
theorem exec_regsBelow {width : Nat} (legal : 8 ≤ width) {i : Instr} {s t : State} (h : exec i s = .next t)
    (below : RegsBelow width s) : RegsBelow width t := by
  have combo {o : Combo} {effect : Nat → State} (h : withCombo o s effect = .next t)
      (keeps : ∀ v, RegsBelow width (effect v)) : RegsBelow width t := by
    rcases withCombo_cases h with ⟨v, -, rfl⟩ | ⟨-, rfl⟩
    · exact keeps v
    · exact fun r => by rw [readReg_raiseFault]; exact below r
  have quotient (v : Nat) : divPow2 s.a v < 2 ^ width := (divPow2_le s.a v).trans_lt (below .a)
  cases i with
  | adv o => exact combo h fun v => below.write (quotient v) .a
  | bxl literal =>
    cases h
    exact below.write (Nat.xor_lt_two_pow (below .b) (lt_two_pow_of_lt_byte legal (literalValue_lt literal))) .b
  | bst o => exact combo h fun v => below.write (lt_two_pow_of_lt_byte legal ((mod8_lt v).trans (by decide))) .b
  | jnz target =>
    cases h
    intro r
    rw [apply_ite (readReg r), readReg_jumpTo, readReg_advance, ite_self]
    exact below r
  | bxc discarded => cases h; exact below.write (Nat.xor_lt_two_pow (below .b) (below .c)) .b
  | out o => exact combo h fun v r => by simpa using below r
  | bdv o => exact combo h fun v => below.write (quotient v) .b
  | cdv o => exact combo h fun v => below.write (quotient v) .c

/-- An instruction found inside the ROM leaves IP at or below max(ROM_LEN, 255) (R16). -/
theorem exec_ip_le {i : Instr} {s t : State} (h : exec i s = .next t) (inside : s.ip + 1 < s.romLen) :
    t.ip ≤ max s.romLen 255 := by
  rcases exec_ip h with rfl | ⟨-, ip⟩
  · simp only [raiseFault_ip]
    omega
  · rw [ip]
    have operand := i.operand.isLt
    split_ifs <;> omega

/-- STATUS after a meaning is STATUS before it or ReservedCombo. -/
theorem exec_status_cases {i : Instr} {s t : State} (h : exec i s = .next t) :
    t.status = s.status ∨ t.status = .faulted .reservedCombo := by
  rcases exec_ip h with rfl | ⟨status, -⟩
  · exact .inr rfl
  · exact .inl status

end Sys2Proof.Machine

namespace Sys2Proof

open Machine

theorem Inv.regsBelow {p : Params} {s : State} (inv : Inv p s) : RegsBelow p.xlen s
  | .a => inv.a_fits
  | .b => inv.b_fits
  | .c => inv.c_fits

/-- On legal widths IP fits its register, for ROM_LEN and 255 do (R16). -/
theorem Inv.ip_fits {p : Params} {s : State} (legal : p.Legal) (inv : Inv p s) : p.FitsIp s.ip :=
  inv.ip_le.trans_lt (max_lt inv.romLen_fits (lt_two_pow_of_lt_byte legal.2 (by decide)))

theorem Inv.halt {p : Params} {s : State} (inv : Inv p s) (past : s.romLen ≤ s.ip) : Inv p (halt s) :=
  { inv with halted_ip := fun _ => past, missing_ip := nofun, illegal_ip := nofun, reserved_ip := nofun }

theorem Inv.missingOperand {p : Params} {s : State} (inv : Inv p s) (last : s.ip + 1 = s.romLen) :
    Inv p (raiseFault .missingOperand s) :=
  { inv with halted_ip := nofun, missing_ip := fun _ => last, illegal_ip := nofun, reserved_ip := nofun }

theorem Inv.illegalOpcode {p : Params} {s : State} (inv : Inv p s) (inside : s.ip + 1 < s.romLen) :
    Inv p (raiseFault .illegalOpcode s) :=
  { inv with halted_ip := nofun, missing_ip := nofun, illegal_ip := fun _ => inside, reserved_ip := nofun }

/-- An instruction that a Running block finds inside the ROM keeps the invariant. -/
theorem Inv.exec {p : Params} {i : Instr} {s t : State} (legal : p.Legal) (inv : Inv p s) (running : s.status = .running)
    (inside : s.ip + 1 < s.romLen) (h : Machine.exec i s = .next t) : Inv p t := by
  obtain ⟨rom, romLen⟩ := exec_rom h
  have below := exec_regsBelow legal.1 h inv.regsBelow
  have status := exec_status_cases h
  rw [running] at status
  exact
    { a_fits := below .a
      b_fits := below .b
      c_fits := below .c
      romLen_fits := romLen ▸ inv.romLen_fits
      ip_le := romLen ▸ exec_ip_le h inside
      rom_wf := rom ▸ inv.rom_wf
      rom_below := rom ▸ romLen ▸ inv.rom_below
      halted_ip := fun halted => by simp [halted] at status
      missing_ip := fun missing => by simp [missing] at status
      illegal_ip := fun illegal => by simp [illegal] at status
      reserved_ip := fun reserved => by
        rcases exec_ip h with rfl | ⟨kept, -⟩
        · exact inside
        · cases (kept.trans running).symm.trans reserved }

/-- Every step keeps the invariant, in each of the ways a step can end. -/
theorem Inv.step {p : Params} {s t : State} (legal : p.Legal) (inv : Inv p s) (h : Machine.step s = .next t) : Inv p t := by
  obtain ⟨running, ⟨past, rfl⟩ | ⟨last, rfl⟩ | ⟨inside, -, rfl⟩ | ⟨inside, i, -, executed⟩⟩ := step_cases h
  · exact inv.halt past
  · exact inv.missingOperand last
  · exact inv.illegalOpcode inside
  · exact inv.exec legal running inside executed

/-- Every event that answers, a step or a LOAD, keeps the invariant. -/
theorem Inv.react {p : Params} {e : Event} {s t : State} (legal : p.Legal) (inv : Inv p s)
    (h : Machine.react p e s = .next t) : Inv p t := by
  cases e with
  | step => exact inv.step legal h
  | load args => exact Proofs.loadMeetsInvariant p args s t h

theorem afterEvents_cons_eq_next_iff {p : Params} {e : Event} {later : List Event} {s t : State} :
    afterEvents p (e :: later) s = .next t ↔ ∃ u, Machine.react p e s = .next u ∧ afterEvents p later u = .next t := by
  simp only [afterEvents]
  cases Machine.react p e s <;> simp

/-- Every history that answers keeps the invariant. -/
theorem Inv.afterEvents {p : Params} {events : List Event} {s t : State} (legal : p.Legal) (inv : Inv p s)
    (h : Machine.afterEvents p events s = .next t) : Inv p t := by
  induction events generalizing s with
  | nil => cases h; exact inv
  | cons e later ih =>
    obtain ⟨u, first, rest⟩ := afterEvents_cons_eq_next_iff.mp h
    exact ih (inv.react legal first) rest

end Sys2Proof

namespace Sys2Proof.Proofs

open Machine Claims

/-- Settles O50, by `Inv.step`. -/
theorem stepKeepsInvariant : Obligations.StepKeepsInvariant :=
  fun _ _ _ legal inv stepped => inv.step legal stepped

/-- Settles O51: the LOAD meets the invariant (O49), the later events keep it, and it bounds every field. -/
theorem nothingEverWraps : Obligations.NothingEverWraps := by
  intro p args later s t legal history
  obtain ⟨loaded, loads, rest⟩ := afterEvents_cons_eq_next_iff.mp history
  have inv : Inv p t := (loadMeetsInvariant p args s loaded loads).afterEvents legal rest
  exact ⟨inv.a_fits, inv.b_fits, inv.c_fits, inv.ip_fits legal, inv.ip_le⟩

end Sys2Proof.Proofs
end

section
/-! SUPPORT. The bit-level datapath (spec/00_scope.md R6, spec/30_encoding.md R50 to R53): on a state that meets the invariant
every number is read back whole from its bits, so each comparison, each result and each commit is the model's own. -/

namespace Sys2Proof.Machine

/-! ### The state in bits -/

theorem bitsOf_romLen_le_ip_iff {p : Params} {s : State} (romLen : p.FitsIp s.romLen) (ip : p.FitsIp s.ip) :
    (bitsOf p s).romLen ≤ (bitsOf p s).ip ↔ s.romLen ≤ s.ip := by
  rw [BitVec.le_def, bitsOf, toNat_ofNat_of_lt romLen, toNat_ofNat_of_lt ip]

/-- Below ROM_LEN, `IP + 1` does not wrap. -/
theorem bitsOf_ip_add_one {p : Params} {s : State} (romLen : p.FitsIp s.romLen) (inside : s.ip < s.romLen) :
    ((bitsOf p s).ip + 1).toNat = s.ip + 1 := by
  have next : (bitsOf p s).ip + 1 = BitVec.ofNat p.ipw (s.ip + 1) := (BitVec.ofNat_add _ _).symm
  rw [next, toNat_ofNat_of_lt (show s.ip + 1 < 2 ^ p.ipw from Nat.lt_of_le_of_lt inside romLen)]

theorem bitsOf_romLen_le_ip_add_one_iff {p : Params} {s : State} (romLen : p.FitsIp s.romLen)
    (inside : s.ip < s.romLen) : (bitsOf p s).romLen ≤ (bitsOf p s).ip + 1 ↔ s.romLen ≤ s.ip + 1 := by
  rw [BitVec.le_def, bitsOf_ip_add_one romLen inside, bitsOf, toNat_ofNat_of_lt romLen]

theorem seven_ult_iff (x : Byte) : (7 : Byte).ult x = true ↔ 8 ≤ x.toNat := by
  simp [BitVec.ult, Nat.succ_le_iff]

theorem kindCode_eq_combo_iff (kind : OperandKind) : kindCode kind = kindCode .combo ↔ kind = .combo := by
  cases kind <;> simp [kindCode]

/-- The halt of a Running block in bits: its CAUSE is 0 already (R19). -/
theorem bitsOf_halt (p : Params) {s : State} (running : s.status = .running) :
    bitsOf p (halt s) = { bitsOf p s with status := 1 } := by
  simp [bitsOf, running, Status.code, Status.causeCode]

/-- A Running block's step in bits, with each of R52's tests made on the model's numbers. -/
theorem bitStep_bitsOf {p : Params} {s : State} (romLen : p.FitsIp s.romLen) (ip : p.FitsIp s.ip)
    (running : s.status = .running) :
    bitStep (bitsOf p s) =
      if s.romLen ≤ s.ip then some (bitsOf p (halt s))
      else if s.romLen ≤ s.ip + 1 then some (bitsOf p (raiseFault .missingOperand s))
      else if 8 ≤ (s.rom.read s.ip).toNat then some (bitsOf p (raiseFault .illegalOpcode s))
      else if (controlOf ((s.rom.read s.ip).extractLsb' 0 3)).kind = .combo ∧ 7 ≤ (s.rom.read (s.ip + 1)).toNat then
        some (bitsOf p (raiseFault .reservedCombo s))
      else some (commitBits (controlOf ((s.rom.read s.ip).extractLsb' 0 3)) (s.rom.read (s.ip + 1)) (bitsOf p s)) := by
  have status : (bitsOf p s).status = 0 := by rw [bitsOf, running]; rfl
  have opcode : (bitsOf p s).rom.read (bitsOf p s).ip.toNat = s.rom.read s.ip :=
    congrArg s.rom.read (toNat_ofNat_of_lt ip)
  simp only [bitStep, status, ne_eq, not_true_eq_false, if_false, bitsOf_romLen_le_ip_iff romLen ip, opcode,
    seven_ult_iff, resolverInvalid_iff, kindCode_eq_combo_iff]
  by_cases past : s.romLen ≤ s.ip
  · rw [if_pos past, if_pos past, bitsOf_halt p running]
  · have operand : (bitsOf p s).rom.read ((bitsOf p s).ip + 1).toNat = s.rom.read (s.ip + 1) :=
      congrArg s.rom.read (bitsOf_ip_add_one romLen (not_le.mp past))
    simp only [bitsOf_romLen_le_ip_add_one_iff romLen (not_le.mp past), operand,
      bitsOf_halt p running]
    rfl

theorem bitStep_of_stopped (p : Params) {s : State} (stopped : s.status ≠ .running) : bitStep (bitsOf p s) = none :=
  if_pos fun running => stopped (s.status.code_spec.1.mp running)

/-! ### The results -/

/-- The multiplexer resolves a combo operand to the bits of its value. -/
theorem resolverValue_toByte (p : Params) {o : Combo} {s : State} {v : Nat} (hasValue : comboValue o s = some v) :
    resolverValue (kindCode .combo) o.toByte (bitsOf p s).a (bitsOf p s).b (bitsOf p s).c = BitVec.ofNat p.xlen v := by
  apply resolverValue_combo
  cases o with
  | imm n =>
    cases hasValue
    have byte : (Combo.imm n).toByte.toNat = n.toNat := toNat_ofNat_of_lt (n.isLt.trans (by decide))
    rw [comboInput, if_pos (byte ▸ n.isLt), ← BitVec.ofNat_toNat, byte]
  | reg r => cases hasValue; cases r <;> rfl
  | reserved x => cases hasValue

/-- A combo operand's value fits the registers. -/
theorem comboValue_lt {width : Nat} (legal : 8 ≤ width) {o : Combo} {s : State} {v : Nat} (below : RegsBelow width s)
    (hasValue : comboValue o s = some v) : v < 2 ^ width := by
  cases o with
  | imm n => cases hasValue; exact lt_two_pow_of_lt_byte legal (n.isLt.trans (by decide))
  | reg r => cases hasValue; exact below r
  | reserved x => cases hasValue

/-- The shifter gives the quotient (R73), and 0 at and above the width (R74). -/
theorem shifter_ofNat {w a v : Nat} (aFits : a < 2 ^ w) (vFits : v < 2 ^ w) :
    shifter (BitVec.ofNat w a) (BitVec.ofNat w v) = BitVec.ofNat w (divPow2 a v) := by
  rw [shifter, toNat_ofNat_of_lt vFits]
  split_ifs with below
  · apply BitVec.eq_of_toNat_eq
    rw [BitVec.toNat_ushiftRight, toNat_ofNat_of_lt aFits, toNat_ofNat_of_lt ((divPow2_le a v).trans_lt aFits)]
    rfl
  · rw [divPow2_eq_zero aFits (not_lt.mp below)]
    rfl

/-- The low three bits of a value in bits are the value modulo 8 (R8). -/
theorem extractLsb'_ofNat_setWidth {w : Nat} (legal : 8 ≤ w) (v u : Nat) :
    ((BitVec.ofNat w v).extractLsb' 0 3).setWidth u = BitVec.ofNat u (mod8 v) := by
  rw [← BitVec.ofNat_toNat]
  congr 1
  rw [BitVec.extractLsb'_toNat, BitVec.toNat_ofNat, Nat.shiftRight_zero, mod8,
    Nat.mod_mod_of_dvd v (Nat.pow_dvd_pow 2 (show 3 ≤ w by omega))]

/-! ### The commit -/

theorem bitsOf_ip_add_two (p : Params) (s : State) : (bitsOf p s).ip + 2 = BitVec.ofNat p.ipw (s.ip + 2) :=
  (BitVec.ofNat_add _ _).symm

/-- A row of R51's table that writes a register commits the result to it and advances IP. -/
theorem commitBits_register {p : Params} {s : State} {kind : OperandKind} {f : AluFunction} {opd : Byte} {v : Nat}
    (r : Reg) (result : aluResult f (resolverValue (kindCode kind) opd (bitsOf p s).a (bitsOf p s).b (bitsOf p s).c)
      (bitsOf p s) = BitVec.ofNat p.xlen v) :
    commitBits ⟨kind, f, some r, false, false⟩ opd (bitsOf p s) = bitsOf p (advance (writeReg r v s)) := by
  simp only [commitBits, result, bitsOf_ip_add_two, Bool.false_and, Bool.false_eq_true, if_false]
  cases r <;> rfl

/-- A division row commits the model's quotient. -/
theorem commitBits_divide {p : Params} {s : State} {o : Combo} {v : Nat} (legal : p.Legal) (inv : Inv p s) (r : Reg)
    (hasValue : comboValue o s = some v) :
    commitBits ⟨.combo, .divide, some r, false, false⟩ o.toByte (bitsOf p s) =
      bitsOf p (advance (writeReg r (divPow2 s.a v) s)) := by
  apply commitBits_register r
  rw [resolverValue_toByte p hasValue]
  exact shifter_ofNat inv.a_fits (comboValue_lt legal.1 inv.regsBelow hasValue)

theorem commitBits_bxl (p : Params) (s : State) (opd : Byte) :
    commitBits ⟨.literal, .xorValue, some .b, false, false⟩ opd (bitsOf p s) =
      bitsOf p (advance (writeReg .b (s.b ^^^ literalValue opd) s)) := by
  apply commitBits_register .b
  rw [BitVec.ofNat_xor, literalValue, BitVec.ofNat_toNat]
  rfl

theorem commitBits_bst {p : Params} {s : State} {o : Combo} {v : Nat} (legal : p.Legal)
    (hasValue : comboValue o s = some v) :
    commitBits ⟨.combo, .valueMod8, some .b, false, false⟩ o.toByte (bitsOf p s) =
      bitsOf p (advance (writeReg .b (mod8 v) s)) := by
  apply commitBits_register .b
  rw [resolverValue_toByte p hasValue]
  exact extractLsb'_ofNat_setWidth legal.1 v p.xlen

theorem commitBits_bxc (p : Params) (s : State) (opd : Byte) :
    commitBits ⟨.ignored, .xorC, some .b, false, false⟩ opd (bitsOf p s) =
      bitsOf p (advance (writeReg .b (s.b ^^^ s.c) s)) := by
  apply commitBits_register .b
  rw [BitVec.ofNat_xor]
  rfl

/-- The OUT row appends the low three bits of the value and advances IP. -/
theorem commitBits_out {p : Params} {s : State} {o : Combo} {v : Nat} (legal : p.Legal)
    (hasValue : comboValue o s = some v) :
    commitBits ⟨.combo, .valueMod8, none, true, false⟩ o.toByte (bitsOf p s) =
      bitsOf p (advance (outAppend (lowThreeBits v) s)) := by
  have element : (((BitVec.ofNat p.xlen v).extractLsb' 0 3).setWidth p.xlen).setWidth 3 = lowThreeBits v := by
    rw [extractLsb'_ofNat_setWidth legal.1, BitVec.setWidth_ofNat_of_le (show 3 ≤ p.xlen by have := legal.1; omega),
      lowThreeBits_eq_ofNat_mod]
    rfl
  simp only [commitBits, resolverValue_toByte p hasValue, aluResult, element, bitsOf_ip_add_two,
    Bool.false_and, Bool.false_eq_true, if_false, if_true]
  rfl

/-- The JNZ row redirects IP when A is not 0, and advances it when A is 0. -/
theorem commitBits_jnz {p : Params} {s : State} (inv : Inv p s) (opd : Byte) :
    commitBits ⟨.literal, .testA, none, false, true⟩ opd (bitsOf p s) =
      bitsOf p (if jumpTaken s then jumpTo (literalValue opd) s else advance s) := by
  have test : ((bitsOf p s).a != 0) = jumpTaken s := by
    have value : (bitsOf p s).a.toNat = s.a := toNat_ofNat_of_lt inv.a_fits
    rw [jumpTaken, Bool.eq_iff_iff, bne_iff_ne, bne_iff_ne, ne_eq, ne_eq, ← BitVec.toNat_inj, value]
    rfl
  simp only [commitBits, test, bitsOf_ip_add_two, Bool.true_and, Bool.false_eq_true, if_false]
  split_ifs
  · rw [← BitVec.ofNat_toNat]
    rfl
  · rfl

/-- The datapath's commit is the instruction's effect, for every instruction that does not fault (R51). -/
theorem commitBits_of_exec {p : Params} {i : Instr} {s t : State} (legal : p.Legal) (inv : Inv p s)
    (h : exec i s = .next t) (running : t.status = .running) :
    commitBits (controlOf (i.opcode.extractLsb' 0 3)) i.operand (bitsOf p s) = bitsOf p t := by
  have combo {o : Combo} {effect : Nat → State} (h : withCombo o s effect = .next t) :
      ∃ v, comboValue o s = some v ∧ effect v = t := by
    rcases withCombo_cases h with ⟨v, hasValue, rfl⟩ | ⟨-, rfl⟩
    · exact ⟨v, hasValue, rfl⟩
    · cases running
  cases i with
  | adv o => obtain ⟨v, hasValue, rfl⟩ := combo h; exact commitBits_divide legal inv .a hasValue
  | bxl literal => cases h; exact commitBits_bxl p s literal
  | bst o => obtain ⟨v, hasValue, rfl⟩ := combo h; exact commitBits_bst legal hasValue
  | jnz target => cases h; exact commitBits_jnz inv target
  | bxc discarded => cases h; exact commitBits_bxc p s discarded
  | out o => obtain ⟨v, hasValue, rfl⟩ := combo h; exact commitBits_out legal hasValue
  | bdv o => obtain ⟨v, hasValue, rfl⟩ := combo h; exact commitBits_divide legal inv .b hasValue
  | cdv o => obtain ⟨v, hasValue, rfl⟩ := combo h; exact commitBits_divide legal inv .c hasValue

/-- On a state that meets the invariant the datapath answers the bits of the model's next state. -/
theorem bitStep_of_step {p : Params} {s t : State} (legal : p.Legal) (inv : Inv p s) (h : step s = .next t) :
    bitStep (bitsOf p s) = some (bitsOf p t) := by
  obtain ⟨running, rest⟩ := step_cases h
  rw [bitStep_bitsOf inv.romLen_fits (inv.ip_fits legal) running]
  obtain ⟨past, rfl⟩ | ⟨last, rfl⟩ | ⟨inside, illegal, rfl⟩ | ⟨inside, i, decoded, executed⟩ := rest
  · rw [if_pos past]
  · rw [if_neg (by omega), if_pos last.ge]
  · rw [if_neg (by omega), if_neg (by omega), if_pos illegal]
  · obtain ⟨opcode, operand, wf⟩ := decodePair_ok decoded
    have status := exec_status wf executed
    have assigned := Laws.opcode_assigned i
    rw [if_neg (by omega), if_neg (by omega), ← opcode, ← operand, if_neg (by omega), controlOf_opcode_kind]
    split_ifs at status ⊢
    · rw [status]
    · rw [commitBits_of_exec legal inv executed (status.trans running)]

/-! ### Equal bits -/

/-- A number that fits is determined by its bits. -/
theorem eq_of_ofNat_eq {w m n : Nat} (mFits : m < 2 ^ w) (nFits : n < 2 ^ w)
    (same : BitVec.ofNat w m = BitVec.ofNat w n) : m = n := by
  rw [← toNat_ofNat_of_lt mFits, same, toNat_ofNat_of_lt nFits]

/-- STATUS and CAUSE are determined by their codes. -/
theorem Status.eq_of_codes {x y : Status} (code : x.code = y.code) (cause : x.causeCode = y.causeCode) : x = y := by
  obtain ⟨running, halted, -, -⟩ := y.code_spec
  obtain ⟨-, missing, illegal, reserved⟩ := y.causeCode_spec
  cases x with
  | running => exact (running.mp code.symm).symm
  | halted => exact (halted.mp code.symm).symm
  | faulted why =>
    cases why with
    | missingOperand => exact (missing.mp cause.symm).symm
    | illegalOpcode => exact (illegal.mp cause.symm).symm
    | reservedCombo => exact (reserved.mp cause.symm).symm

end Sys2Proof.Machine

namespace Sys2Proof.Proofs

open Machine Claims

/-- Settles O55: a step that answers is `bitStep_of_step`, and a block without a step has none in bits. -/
theorem datapathTakesTheSameStep : Obligations.DatapathTakesTheSameStep := by
  intro p s legal inv
  by_cases running : s.status = .running
  · obtain ⟨t, stepped, -⟩ := runningAlwaysStepsAndStoppedNever.1 s running
    rw [stepped]
    exact bitStep_of_step legal inv stepped
  · rw [bitStep_of_stopped p running]
    cases stepped : step s with
    | next t => exact absurd (step_cases stepped).1 running
    | fault r => rfl
    | refused r => rfl

/-- Settles O56: every element of the state is determined by its bits. -/
theorem bitsDetermineTheState : Obligations.BitsDetermineTheState := by
  intro p s s' legal inv inv' same
  obtain ⟨a, b, c, ip, out, status, cause, rom, romLen⟩ := BitState.mk.inj same
  have a := eq_of_ofNat_eq inv.a_fits inv'.a_fits a
  have b := eq_of_ofNat_eq inv.b_fits inv'.b_fits b
  have c := eq_of_ofNat_eq inv.c_fits inv'.c_fits c
  have ip := eq_of_ofNat_eq (inv.ip_fits legal) (inv'.ip_fits legal) ip
  have romLen := eq_of_ofNat_eq inv.romLen_fits inv'.romLen_fits romLen
  have status := Status.eq_of_codes status cause
  cases s
  cases s'
  exact (State.mk.injEq ..).mpr ⟨a, b, c, ip, out, status, rom, romLen⟩

end Sys2Proof.Proofs
end

section
/-! SUPPORT. Runs of special programs (spec/30_encoding.md R59, spec/42_control.md R92, R93): a well-formed program with even
jump literals never faults, and a taken JNZ to its own offset never ends. -/

namespace Sys2Proof

open Machine Claims

theorem isComboOpcode_iff (b : Byte) : isComboOpcode b = true ↔ b.toNat ∈ [0, 2, 5, 6, 7] := by
  revert b; decide

/-- On a well-formed program at an even IP no fault's condition holds: both bytes exist by (a), the opcode byte is legal by
(b), and a combo operand byte is below 7 by (b) and (c). -/
theorem WellFormedRun.statusAfterStep {s : State} (well : WellFormedRun s) :
    statusAfterStep s.rom s.romLen s.ip = if s.romLen ≤ s.ip then .halted else .running := by
  obtain ⟨even, small, noSeven, -, evenIp, -⟩ := well
  unfold Machine.statusAfterStep
  split_ifs with past last illegal reserved
  · rfl
  · omega
  · have opcode := small s.ip (by omega)
    omega
  · obtain ⟨combo, large⟩ := reserved
    have operand := small (s.ip + 1) (by omega)
    have notSeven := noSeven s.ip (by omega) evenIp ((isComboOpcode_iff _).mpr combo)
    omega
  · rfl

/-- On a well-formed program with even jump literals a step leaves IP even: it stays, advances by 2, or is a jump literal of
an even offset, which (d) makes even. -/
theorem WellFormedRun.even_ip_of_step {s t : State} (well : WellFormedRun s) (h : step s = .next t) : t.ip % 2 = 0 := by
  have status := step_status h
  rw [well.statusAfterStep] at status
  obtain ⟨stays, moves⟩ := Proofs.ipAdvancesByTwoOrJumps s t h
  have evenIp := well.even_ip
  split_ifs at status with past
  · rw [stays (by simp [status])]
    exact evenIp
  · have moved := moves status
    split_ifs at moved with jump
    · rw [moved]
      exact well.even_jumps s.ip (not_le.mp past) evenIp (congrArg BitVec.toNat jump.1)
    · omega

/-- Every step keeps the well-formed program, IP even and STATUS not Faulted. -/
theorem WellFormedRun.step {s t : State} (well : WellFormedRun s) (h : Machine.step s = .next t) : WellFormedRun t := by
  obtain ⟨rom, romLen⟩ := step_rom h
  have status := step_status h
  rw [well.statusAfterStep] at status
  exact
    { even_length := romLen ▸ well.even_length
      cells_small := rom ▸ romLen ▸ well.cells_small
      no_combo_seven := rom ▸ romLen ▸ well.no_combo_seven
      even_jumps := rom ▸ romLen ▸ well.even_jumps
      even_ip := well.even_ip_of_step h
      not_faulted := fun cause faulted => by
        rw [faulted] at status
        split_ifs at status }

/-- A loaded program that meets (a) to (d) starts a well-formed run, for the loaded ROM reads as the program. -/
theorem wellFormedRun_loadedState {args : LoadArgs} (wellFormed : RomWellFormed args.rom)
    (evenJumps : RomEvenJumps args.rom) : WellFormedRun (loadedState args) := by
  obtain ⟨even, small, noSeven⟩ := wellFormed
  have read (i : Nat) : (loadedState args).rom.read i = args.rom.getD i 0 := Memory.read_ofBytes args.rom i
  exact
    { even_length := even
      cells_small := fun i inside => by rw [read]; exact small i inside
      no_combo_seven := fun i inside => by rw [read, read]; exact noSeven i inside
      even_jumps := fun i inside => by rw [read, read]; exact evenJumps i inside
      even_ip := rfl
      not_faulted := nofun }

/-- A well-formed run can always go on until it halts: a Running block has a step, and STATUS is not Faulted. -/
theorem WellFormedRun.progress {s : State} (well : WellFormedRun s) :
    s.status = .halted ∨ ∃ t, Machine.step s = .next t := by
  cases status : s.status with
  | running =>
    obtain ⟨t, stepped, -⟩ := Proofs.runningAlwaysStepsAndStoppedNever.1 s status
    exact .inr ⟨t, stepped⟩
  | halted => exact .inl rfl
  | faulted cause => exact absurd status (well.not_faulted cause)

/-- A taken JNZ whose target is its own offset answers the state it came from (R92). -/
theorem step_jumpToItself {s : State} (running : s.status = .running) (inside : s.ip + 1 < s.romLen)
    (opcode : opcodeAt s = 3) (target : (operandAt s).toNat = s.ip) (taken : s.a ≠ 0) : step s = .next s := by
  have jumps := (Proofs.jnzByBytes s running (Nat.lt_of_succ_lt inside) opcode).2 inside
  simpa only [if_pos taken, target] using jumps

/-- A state whose step is itself is all that its run reaches. -/
theorem Reaches.eq_of_step_self {s t : State} (run : Reaches s t) (self : step s = .next s) : t = s :=
  run.keeps (P := fun u => u = s) (fun _ _ same last => by cases same; cases last.symm.trans self; rfl) rfl

end Sys2Proof

namespace Sys2Proof.Proofs

open Machine Claims

/-- Settles O59: `WellFormedRun.step` and `wellFormedRun_loadedState`. -/
theorem stepKeepsWellFormedRun : Obligations.StepKeepsWellFormedRun := by
  refine ⟨fun s t well stepped => well.step stepped, fun p args s t wellFormed evenJumps loads => ?_⟩
  obtain ⟨-, rfl⟩ := load_eq_next_iff.mp loads
  exact wellFormedRun_loadedState wellFormed evenJumps

/-- Settles O52: the run starts well formed and stays so (O59), and such a state is not Faulted and can go on. -/
theorem wellFormedProgramsNeverFault : Obligations.WellFormedProgramsNeverFault := by
  intro p args s loaded t wellFormed evenJumps loads run
  have start : WellFormedRun loaded := stepKeepsWellFormedRun.2 p args s loaded wellFormed evenJumps loads
  have reached {u : State} (run : Reaches loaded u) : WellFormedRun u := run.keeps stepKeepsWellFormedRun.1 start
  exact ⟨fun u cause run => (reached run).not_faulted cause, (reached run).even_ip, (reached run).progress⟩

/-- Settles O54: the step answers the same state, so the run never leaves Running and has no result (O53). -/
theorem jumpToItselfRunsForever : Obligations.JumpToItselfRunsForever := by
  intro s t running inside opcode target taken run
  have self : step s = .next s := step_jumpToItself running inside opcode target taken
  exact ⟨run.eq_of_step_self self, resultOfARun.2.2 s fun u toU => by rw [toU.eq_of_step_self self, running]⟩

end Sys2Proof.Proofs
end

section
/-! SUPPORT. The search procedure of the host (spec/70_reset_and_hazards.md R141): what it takes for the end of a run is one,
and it passes over no candidate whose run prints the ROM. -/

namespace Sys2Proof

open Machine

/-- A run may be put together from its first step and the rest. -/
theorem Reaches.head {s t u : State} (first : step s = .next t) (rest : Reaches t u) : Reaches s u :=
  reaches_iff_reflTransGen.mpr ((reaches_iff_reflTransGen.mp rest).head first)

/-- What `runToStop` finds is a state of the run in which the block has stopped. -/
theorem runToStop_eq_some {fuel : Nat} {s t : State} (h : runToStop fuel s = some t) :
    Reaches s t ∧ t.status ≠ .running := by
  induction fuel generalizing s with
  | zero =>
    unfold runToStop at h
    split_ifs at h with running
    cases h
    exact ⟨.refl _, running⟩
  | succ fuel ih =>
    unfold runToStop at h
    split_ifs at h with running
    · split at h
      · next u first =>
        obtain ⟨rest, stopped⟩ := ih h
        exact ⟨.head first rest, stopped⟩
      · cases h
    · cases h
      exact ⟨.refl _, running⟩

theorem outputIsRom_iff (out : List OutVal) (rom : List Byte) :
    outputIsRom out rom = true ↔ out.map BitVec.toNat = rom.map BitVec.toNat := beq_iff_eq

/-- The state in which a candidate's run starts. -/
def candidateStart (rom : List Byte) (b0 c0 a : Nat) : State := loadedState { rom := rom, a0 := a, b0 := b0, c0 := c0 }

/-- The run halts and its output is the ROM. -/
def PrintsRom (rom : List Byte) (s : State) : Prop :=
  ∃ r, HasResult s r ∧ r.out.map BitVec.toNat = rom.map BitVec.toNat

/-- Whether a run that halts prints the ROM is decided in the state it halts in. -/
theorem printsRom_iff_of_halted {rom : List Byte} {s t : State} (run : Reaches s t) (halted : t.status = .halted) :
    PrintsRom rom s ↔ outputIsRom t.out rom = true := by
  have result := hasResult_iff_of_reaches_stopped run (by simp [halted])
  rw [outputIsRom_iff]
  constructor
  · rintro ⟨r, hasResult, prints⟩
    obtain ⟨-, rfl⟩ := (result r).mp hasResult
    exact prints
  · exact fun prints => ⟨resultOf t, (result _).mpr ⟨halted, rfl⟩, prints⟩

/-- A search that finds something finds the first candidate, whose run prints the ROM, or passes over it, whose run does
not, and finds the same from the next one on. -/
theorem searchFrom_succ_found {p : Params} {rom : List Byte} {b0 c0 runFuel tries first n : Nat} {s : State}
    (h : searchFrom p rom b0 c0 runFuel (tries + 1) first s = .found n) :
    (n = first ∧ PrintsRom rom (candidateStart rom b0 c0 first)) ∨
      (¬ PrintsRom rom (candidateStart rom b0 c0 first) ∧
        ∃ stopped, searchFrom p rom b0 c0 runFuel tries (first + 1) stopped = .found n) := by
  unfold searchFrom at h
  split at h
  case h_2 => cases h
  case h_1 loaded loads =>
    obtain ⟨-, rfl⟩ := load_eq_next_iff.mp loads
    split at h
    case h_1 => cases h
    case h_2 stopped ends =>
      obtain ⟨run, stops⟩ := runToStop_eq_some ends
      split at h
      case h_1 => cases h
      case h_2 notFaulted =>
        have halted : stopped.status = .halted := by
          cases status : stopped.status with
          | running => exact absurd status stops
          | halted => rfl
          | faulted cause => exact absurd status (notFaulted cause)
        have prints := printsRom_iff_of_halted (rom := rom) (s := candidateStart rom b0 c0 first) run halted
        split_ifs at h with isRom
        · cases h
          exact .inl ⟨rfl, prints.mpr isRom⟩
        · exact .inr ⟨fun printed => isRom (prints.mp printed), stopped, h⟩

/-- The search finds the least candidate, from the first on, whose run prints the ROM. -/
theorem searchFrom_found {p : Params} {rom : List Byte} {b0 c0 runFuel tries first n : Nat} {s : State}
    (h : searchFrom p rom b0 c0 runFuel tries first s = .found n) :
    PrintsRom rom (candidateStart rom b0 c0 n) ∧ first ≤ n ∧
      ∀ m, first ≤ m → m < n → ¬ PrintsRom rom (candidateStart rom b0 c0 m) := by
  induction tries generalizing first s with
  | zero => cases h
  | succ tries ih =>
    rcases searchFrom_succ_found h with ⟨rfl, prints⟩ | ⟨firstDoesNot, stopped, rest⟩
    · exact ⟨prints, le_refl _, fun m _ _ => by omega⟩
    · obtain ⟨prints, le, least⟩ := ih rest
      refine ⟨prints, by omega, fun m atLeast below => ?_⟩
      rcases Nat.eq_or_lt_of_le atLeast with rfl | later
      · exact firstDoesNot
      · exact least m later below

end Sys2Proof

namespace Sys2Proof.Proofs

open Machine Claims

/-- Settles O57, by `searchFrom_found`. -/
theorem searchFindsTheLeastCandidate : Obligations.SearchFindsTheLeastCandidate := by
  intro p rom b0 c0 runFuel tries first n s h
  obtain ⟨prints, le, least⟩ := searchFrom_found h
  exact ⟨prints, le, fun m atLeast below r hasResult printed => least m atLeast below ⟨r, hasResult, printed⟩⟩

end Sys2Proof.Proofs
end
